-- ==== Sys2Proof/Word.lean ====
section
/-! DEFINITION. The widths of the core's values (00_scope.md R6, R8): every value is an unsigned integer of a fixed width. -/

namespace Sys2Proof

/-- An 8-bit value: a general register, a byte of memory, a timer count, the immediate `nn` (R22, R60, R92). -/
abbrev Byte := BitVec 8

/-- A 16-bit value: `I`, `pc`, a stack slot, an instruction word (R27, R28, R31, R90). -/
abbrev Word := BitVec 16

/-- A 4-bit field: a register index `x` or `y`, a sprite height `n`, a key code 0 to 15 (R92, R258). -/
abbrev Nibble := BitVec 4

/-- The 12-bit address field `nnn` (R92). -/
abbrev Addr := BitVec 12

/-- The 2048 one-bit cells of the framebuffer, cell `col + 64*row` at bit `col + 64*row` (R33). -/
abbrev Frame := BitVec 2048

/-- An instant of the wall clock, in milliseconds (R260; the unit is the model's, notes/assumptions/4.md). -/
abbrev Instant := ℚ

end Sys2Proof
end

