-- ==== Sys2Proof/Syntax.lean ====
section
/-! DEFINITION. The 34 instructions of 30_encoding.md R96, one constructor per row of spec/opcode_table.json. Each operand
has exactly the width of its field (R92, R94), so every term is an instruction the encoding can express. -/

namespace Sys2Proof

/-- The instructions, in the order of the opcode map. -/
inductive Instr where
  /-- `00E0` CLS: clear the framebuffer (R201). -/
  | cls
  /-- `00EE` RET: return (R121). -/
  | ret
  /-- `1NNN` JP nnn: jump (R124). -/
  | jp (nnn : Addr)
  /-- `2NNN` CALL nnn: call (R122). -/
  | call (nnn : Addr)
  /-- `3XNN` SE Vx, nn: skip if equal (R125). -/
  | seImm (x : Nibble) (nn : Byte)
  /-- `4XNN` SNE Vx, nn: skip if not equal (R126). -/
  | sneImm (x : Nibble) (nn : Byte)
  /-- `5XY0` SE Vx, Vy: skip if equal (R127). -/
  | seReg (x y : Nibble)
  /-- `6XNN` LD Vx, nn: load immediate (R151). -/
  | ldImm (x : Nibble) (nn : Byte)
  /-- `7XNN` ADD Vx, nn: add immediate, no flag (R152). -/
  | addImm (x : Nibble) (nn : Byte)
  /-- `8XY0` LD Vx, Vy: copy (R153). -/
  | ldReg (x y : Nibble)
  /-- `8XY1` OR Vx, Vy (R154). -/
  | orReg (x y : Nibble)
  /-- `8XY2` AND Vx, Vy (R155). -/
  | andReg (x y : Nibble)
  /-- `8XY3` XOR Vx, Vy (R156). -/
  | xorReg (x y : Nibble)
  /-- `8XY4` ADD Vx, Vy: VF is the carry (R157). -/
  | addReg (x y : Nibble)
  /-- `8XY5` SUB Vx, Vy: VF is not-borrow (R158). -/
  | sub (x y : Nibble)
  /-- `8XY6` SHR Vx: VF is the bit shifted out; `y` is decoded and not used (R159, R100). -/
  | shr (x y : Nibble)
  /-- `8XY7` SUBN Vx, Vy: VF is not-borrow (R160). -/
  | subn (x y : Nibble)
  /-- `8XYE` SHL Vx: VF is the bit shifted out; `y` is decoded and not used (R161, R100). -/
  | shl (x y : Nibble)
  /-- `9XY0` SNE Vx, Vy: skip if not equal (R128). -/
  | sneReg (x y : Nibble)
  /-- `ANNN` LD I, nnn (R181). -/
  | ldI (nnn : Addr)
  /-- `BNNN` JP V0, nnn: jump with offset (R123). -/
  | jpV0 (nnn : Addr)
  /-- `CXNN` RND Vx, nn: random byte and mask (R162). -/
  | rnd (x : Nibble) (nn : Byte)
  /-- `DXYN` DRW Vx, Vy, n: XOR a sprite of `n` rows (R202). -/
  | drw (x y n : Nibble)
  /-- `EX9E` SKP Vx: skip if the key is pressed (R221). -/
  | skp (x : Nibble)
  /-- `EXA1` SKNP Vx: skip if the key is not pressed (R222). -/
  | sknp (x : Nibble)
  /-- `FX07` LD Vx, DT: read the delay timer (R224). -/
  | ldVxDt (x : Nibble)
  /-- `FX0A` LD Vx, K: wait for a key (R223). -/
  | ldVxK (x : Nibble)
  /-- `FX15` LD DT, Vx: start the delay timer (R225). -/
  | ldDtVx (x : Nibble)
  /-- `FX18` LD ST, Vx: start the sound timer (R226). -/
  | ldStVx (x : Nibble)
  /-- `FX1E` ADD I, Vx: VF is the 16-bit overflow (R182). -/
  | addI (x : Nibble)
  /-- `FX29` LD F, Vx: address of a font glyph (R183). -/
  | ldF (x : Nibble)
  /-- `FX33` LD B, Vx: store three decimal digits (R184). -/
  | ldB (x : Nibble)
  /-- `FX55` LD [I], Vx: store `V0` to `Vx` (R185). -/
  | ldMemVx (x : Nibble)
  /-- `FX65` LD Vx, [I]: load `V0` to `Vx` (R186). -/
  | ldVxMem (x : Nibble)
  deriving DecidableEq, Repr

end Sys2Proof
end

