-- ==== Sys2Proof/WellFormed.lean ====
section
/-! DEFINITION. Well-formedness. An `Instr` needs no check: its operands have the exact widths of their fields. What can
be ill formed is a row of an opcode map and the map itself (30_encoding.md R95, R96), so the checks are on those. -/

namespace Sys2Proof

/-- One row of the opcode map (R96): a word belongs to the row when `word & mask = bits`. -/
structure OpRow where
  /-- The bits the row fixes. -/
  mask : Word
  /-- Their values (the table's "match"). -/
  bits : Word
  deriving DecidableEq, Repr

/-- The word belongs to the row (R95: `(IW & mask) = match`). -/
def OpRow.matchesWord (r : OpRow) (w : Word) : Bool := w &&& r.mask == r.bits

/-- Check 1: the row fixes no bit outside its mask, or no word could match it. -/
def OpRow.bitsInMask (r : OpRow) : Bool := r.bits &&& r.mask == r.bits

/-- Check 2: the row fixes the whole high nibble, by which dispatch begins (R95). -/
def OpRow.fixesFamily (r : OpRow) : Bool := 0xF000 &&& r.mask == 0xF000

/-- Check 3: some bit fixed by both rows differs, so no word matches both (R95: "pairwise disjoint"). -/
def OpRow.disjointFrom (r q : OpRow) : Bool := (r.bits ^^^ q.bits) &&& r.mask &&& q.mask != 0

/-- A row is well formed. -/
def OpRow.wellFormed (r : OpRow) : Bool := r.bitsInMask && r.fixesFamily

/-- A map is well formed: every row is, and no two rows share a word. -/
def opcodeMapWellFormed : List OpRow → Bool
  | [] => true
  | r :: rest => r.wellFormed && rest.all (fun q => r.disjointFrom q) && opcodeMapWellFormed rest

end Sys2Proof
end

