-- ==== Sys2Proof/Decode.lean ====
section
/-! DEFINITION. Decoding of the 16-bit instruction words (30_encoding.md R90 to R101), total on any bytes, and the encoder
written from the same formats. -/

namespace Sys2Proof

/-- Why bytes are no instruction. -/
inductive DecodeError where
  /-- Fewer than two bytes: an instruction is exactly 16 bits (R90). -/
  | truncated
  /-- The word matches no row of the opcode map (R98). -/
  | unknownOpcode (w : Word)
  deriving DecidableEq, Repr

/-- The instruction word of two consecutive bytes, high byte first (R66, R91). -/
def wordOfBytes (hi lo : Byte) : Word := hi ++ lo

/-- The two bytes of an instruction word in the order memory holds them (R68, R91). -/
def bytesOfWord (w : Word) : List Byte := [w.extractLsb' 8 8, w.extractLsb' 0 8]

/-- `op = IW[15:12]` (R92). -/
def fieldOp (w : Word) : Nibble := w.extractLsb' 12 4

/-- `x = IW[11:8]` (R92). -/
def fieldX (w : Word) : Nibble := w.extractLsb' 8 4

/-- `y = IW[7:4]` (R92). -/
def fieldY (w : Word) : Nibble := w.extractLsb' 4 4

/-- `n = IW[3:0]`, also the sub-key of families 5, 8 and 9 (R92). -/
def fieldN (w : Word) : Nibble := w.extractLsb' 0 4

/-- `nn = IW[7:0]`, also the sub-key of families E and F (R92). -/
def fieldNN (w : Word) : Byte := w.extractLsb' 0 8

/-- `nnn = IW[11:0]`, also the sub-key of family 0 (R92). -/
def fieldNNN (w : Word) : Addr := w.extractLsb' 0 12

/-- Family 8, keyed by the low nibble (R95, R96). -/
def decodeFamily8 (w : Word) : Option Instr :=
  let x := fieldX w
  let y := fieldY w
  match fieldN w with
  | 0x0 => some (.ldReg x y)
  | 0x1 => some (.orReg x y)
  | 0x2 => some (.andReg x y)
  | 0x3 => some (.xorReg x y)
  | 0x4 => some (.addReg x y)
  | 0x5 => some (.sub x y)
  | 0x6 => some (.shr x y)
  | 0x7 => some (.subn x y)
  | 0xE => some (.shl x y)
  | _ => none

/-- Family F, keyed by the low byte (R95, R96). -/
def decodeFamilyF (w : Word) : Option Instr :=
  let x := fieldX w
  match fieldNN w with
  | 0x07 => some (.ldVxDt x)
  | 0x0A => some (.ldVxK x)
  | 0x15 => some (.ldDtVx x)
  | 0x18 => some (.ldStVx x)
  | 0x1E => some (.addI x)
  | 0x29 => some (.ldF x)
  | 0x33 => some (.ldB x)
  | 0x55 => some (.ldMemVx x)
  | 0x65 => some (.ldVxMem x)
  | _ => none

/-- The instruction a word stands for, if it matches a row of the map: dispatch by the high nibble, then by the family's
sub-key (R92, R95, R96; 90_conflicts.md C2: families 0, 5 and 9 have sub-keys too). -/
def decodeWord (w : Word) : Option Instr :=
  let x := fieldX w
  let nn := fieldNN w
  let nnn := fieldNNN w
  match fieldOp w with
  | 0x0 => if nnn = 0x0E0 then some .cls else if nnn = 0x0EE then some .ret else none
  | 0x1 => some (.jp nnn)
  | 0x2 => some (.call nnn)
  | 0x3 => some (.seImm x nn)
  | 0x4 => some (.sneImm x nn)
  | 0x5 => if fieldN w = 0 then some (.seReg x (fieldY w)) else none
  | 0x6 => some (.ldImm x nn)
  | 0x7 => some (.addImm x nn)
  | 0x8 => decodeFamily8 w
  | 0x9 => if fieldN w = 0 then some (.sneReg x (fieldY w)) else none
  | 0xA => some (.ldI nnn)
  | 0xB => some (.jpV0 nnn)
  | 0xC => some (.rnd x nn)
  | 0xD => some (.drw x (fieldY w) (fieldN w))
  | 0xE => if nn = 0x9E then some (.skp x) else if nn = 0xA1 then some (.sknp x) else none
  | _ => decodeFamilyF w

/-- The instruction at the front of some bytes and the bytes after it; refusals carry their reason (R90, R98). -/
def decode : List Byte → Except DecodeError (Instr × List Byte)
  | hi :: lo :: rest =>
    match decodeWord (wordOfBytes hi lo) with
    | some i => .ok (i, rest)
    | none => .error (.unknownOpcode (wordOfBytes hi lo))
  | _ => .error .truncated

/-- Format A: `op nnn` (R93). -/
def formatA (op : Nibble) (nnn : Addr) : Word := op ++ nnn

/-- Format XI: `op x nn` (R93). -/
def formatXI (op x : Nibble) (nn : Byte) : Word := op ++ x ++ nn

/-- Format XY, and format XYN with `n` as the low nibble: `op x y low` (R93). -/
def formatXY (op x y low : Nibble) : Word := op ++ x ++ y ++ low

/-- The word of an instruction (R93, R96). -/
def encode : Instr → Word
  | .cls => 0x00E0
  | .ret => 0x00EE
  | .jp nnn => formatA 0x1 nnn
  | .call nnn => formatA 0x2 nnn
  | .seImm x nn => formatXI 0x3 x nn
  | .sneImm x nn => formatXI 0x4 x nn
  | .seReg x y => formatXY 0x5 x y 0x0
  | .ldImm x nn => formatXI 0x6 x nn
  | .addImm x nn => formatXI 0x7 x nn
  | .ldReg x y => formatXY 0x8 x y 0x0
  | .orReg x y => formatXY 0x8 x y 0x1
  | .andReg x y => formatXY 0x8 x y 0x2
  | .xorReg x y => formatXY 0x8 x y 0x3
  | .addReg x y => formatXY 0x8 x y 0x4
  | .sub x y => formatXY 0x8 x y 0x5
  | .shr x y => formatXY 0x8 x y 0x6
  | .subn x y => formatXY 0x8 x y 0x7
  | .shl x y => formatXY 0x8 x y 0xE
  | .sneReg x y => formatXY 0x9 x y 0x0
  | .ldI nnn => formatA 0xA nnn
  | .jpV0 nnn => formatA 0xB nnn
  | .rnd x nn => formatXI 0xC x nn
  | .drw x y n => formatXY 0xD x y n
  | .skp x => formatXI 0xE x 0x9E
  | .sknp x => formatXI 0xE x 0xA1
  | .ldVxDt x => formatXI 0xF x 0x07
  | .ldVxK x => formatXI 0xF x 0x0A
  | .ldDtVx x => formatXI 0xF x 0x15
  | .ldStVx x => formatXI 0xF x 0x18
  | .addI x => formatXI 0xF x 0x1E
  | .ldF x => formatXI 0xF x 0x29
  | .ldB x => formatXI 0xF x 0x33
  | .ldMemVx x => formatXI 0xF x 0x55
  | .ldVxMem x => formatXI 0xF x 0x65

/-- The mask and match of each instruction's row, transcribed from R96. -/
def Instr.row : Instr → OpRow
  | .cls => ⟨0xFFFF, 0x00E0⟩
  | .ret => ⟨0xFFFF, 0x00EE⟩
  | .jp _ => ⟨0xF000, 0x1000⟩
  | .call _ => ⟨0xF000, 0x2000⟩
  | .seImm _ _ => ⟨0xF000, 0x3000⟩
  | .sneImm _ _ => ⟨0xF000, 0x4000⟩
  | .seReg _ _ => ⟨0xF00F, 0x5000⟩
  | .ldImm _ _ => ⟨0xF000, 0x6000⟩
  | .addImm _ _ => ⟨0xF000, 0x7000⟩
  | .ldReg _ _ => ⟨0xF00F, 0x8000⟩
  | .orReg _ _ => ⟨0xF00F, 0x8001⟩
  | .andReg _ _ => ⟨0xF00F, 0x8002⟩
  | .xorReg _ _ => ⟨0xF00F, 0x8003⟩
  | .addReg _ _ => ⟨0xF00F, 0x8004⟩
  | .sub _ _ => ⟨0xF00F, 0x8005⟩
  | .shr _ _ => ⟨0xF00F, 0x8006⟩
  | .subn _ _ => ⟨0xF00F, 0x8007⟩
  | .shl _ _ => ⟨0xF00F, 0x800E⟩
  | .sneReg _ _ => ⟨0xF00F, 0x9000⟩
  | .ldI _ => ⟨0xF000, 0xA000⟩
  | .jpV0 _ => ⟨0xF000, 0xB000⟩
  | .rnd _ _ => ⟨0xF000, 0xC000⟩
  | .drw _ _ _ => ⟨0xF000, 0xD000⟩
  | .skp _ => ⟨0xF0FF, 0xE09E⟩
  | .sknp _ => ⟨0xF0FF, 0xE0A1⟩
  | .ldVxDt _ => ⟨0xF0FF, 0xF007⟩
  | .ldVxK _ => ⟨0xF0FF, 0xF00A⟩
  | .ldDtVx _ => ⟨0xF0FF, 0xF015⟩
  | .ldStVx _ => ⟨0xF0FF, 0xF018⟩
  | .addI _ => ⟨0xF0FF, 0xF01E⟩
  | .ldF _ => ⟨0xF0FF, 0xF029⟩
  | .ldB _ => ⟨0xF0FF, 0xF033⟩
  | .ldMemVx _ => ⟨0xF0FF, 0xF055⟩
  | .ldVxMem _ => ⟨0xF0FF, 0xF065⟩

/-- The opcode map of R96, its rows in the order of the table: one instruction of each constructor names its row. -/
def opcodeMap : List OpRow :=
  [Instr.cls, .ret, .jp 0, .call 0, .seImm 0 0, .sneImm 0 0, .seReg 0 0, .ldImm 0 0, .addImm 0 0, .ldReg 0 0,
    .orReg 0 0, .andReg 0 0, .xorReg 0 0, .addReg 0 0, .sub 0 0, .shr 0 0, .subn 0 0, .shl 0 0, .sneReg 0 0, .ldI 0,
    .jpV0 0, .rnd 0 0, .drw 0 0 0, .skp 0, .sknp 0, .ldVxDt 0, .ldVxK 0, .ldDtVx 0, .ldStVx 0, .addI 0, .ldF 0,
    .ldB 0, .ldMemVx 0, .ldVxMem 0].map Instr.row

/-- The host's reading of a table row: the word `w` of `nbits` bits, laid out as memory holds it and decoded. -/
def decodeTableWord (nbits w : Nat) : Option Instr :=
  match decode (bytesOfWord (BitVec.ofNat 16 (w % 2 ^ nbits))) with
  | .ok (i, _) => some i
  | .error _ => none

end Sys2Proof
end

