-- ==== Sys2Proof/Config.lean ====
section
/-! DEFINITION. What the environment and an implementation fix: the inputs of one cycle (10_state.md R21), as one record
whose value nothing in Lean can know, and the parameters of 00_scope.md R7. -/

namespace Sys2Proof

/-- The inputs of ONE run-loop cycle (R21): what the ports of 60_exceptions.md R255 to R261 answer during it.
Plain data: the step takes a fresh record at the start of every cycle. -/
structure Env where
  /-- The byte `Random.byte()` answers (R259). -/
  random : Byte
  /-- The codes for which `KeyInput.is_key_pressed` answers true; any 8-bit code may be among them (R257, D13). -/
  held : List Byte
  /-- The key `KeyInput.get_key` observes, one of 16 (R258); `none`: no press yet, the call goes on waiting (R223, D30). -/
  keyPress : Option Nibble
  /-- What the wall clock shows when an instruction executes (R260); readings are made monotone by `readClock`. -/
  execTime : Instant
  /-- What the wall clock shows when the pace phase begins (R293). -/
  paceTime : Instant
  /-- What the wall clock shows when the pacer records `PACE_last`, after any wait (R293, D25). -/
  recordTime : Instant
  /-- What the wall clock shows in the tick phase, one reading for both timers (R252, R260). -/
  tickTime : Instant
  /-- A clock speed the host sets before the cycle begins, if any (R261). -/
  setClock : Option Nat
  deriving DecidableEq, Repr, Inhabited

/-- The environment's answers in the cycle with the given number: a FREE VALUE. It has no body, so no proof can know an
answer, and a claim about a run holds for every environment (R162, R221, R223, R260; notes/assumptions/3.md). -/
opaque Config.environment : Nat → Env

/-- The parameters of 00_scope.md R7 that an implementation fixes, and the one division 92_eei_decisions.md D25 leaves to
it. They stand in the state so that a claim over all states holds for every value (notes/assumptions/7.md). -/
structure Params where
  /-- `ROM_MAX - 1`, 0 to 3583: the type admits exactly the caps `1 <= ROM_MAX <= 3584` that R283 requires. -/
  romMaxLessOne : Fin 3584
  /-- `TIMER_PERIOD`: the least time between two decrements of a timer, in milliseconds (R7, R252, D17). -/
  timerPeriod : ℚ
  /-- Whether the pacer's `1,000,000 / clock_speed` is truncated to whole microseconds (R293, D25). -/
  paceTruncated : Bool
  deriving DecidableEq, Repr

/-- `ROM_MAX`: the largest ROM the load port accepts (R7, R283, D8). -/
def Params.romMax (p : Params) : Nat := p.romMaxLessOne.val + 1

/-- The spec's defaults: 3584 bytes, the exact 50/3 ms (R7), and the exact quotient. -/
def Config.params : Params :=
  { romMaxLessOne := 3583, timerPeriod := 50 / 3, paceTruncated := false }

/-- `CLOCK_SPEED` at reset and the value a request for 0 stores: 500 Hz (R36, R261). -/
def Config.defaultClockSpeed : Nat := 500

end Sys2Proof
end

