-- ==== Sys2Proof/Machine/State.lean ====
section
/-! DEFINITION. The machine's state (10_state.md R20 to R43) as plain data, its run states, and the state after reset
(70_reset_and_hazards.md R280). -/

namespace Sys2Proof.Machine

/-- Why the core halted: the six fatal-error tags (60_exceptions.md R241). -/
inductive FatalTag where
  /-- The word at `pc` is no instruction (R242). -/
  | unknownOpcode
  /-- `2NNN` with 16 return addresses held (R243). -/
  | stackOverflow
  /-- `00EE` with none held (R243). -/
  | stackUnderflow
  /-- A fetch that does not lie in memory (R244). -/
  | fetchOutOfBounds
  /-- A data access that does not lie in memory (R245). -/
  | memoryOutOfBounds
  /-- A cycle asked for before a ROM is loaded (R246). -/
  | missingRom
  deriving DecidableEq, Repr

/-- The run state `RUN` (R37). -/
inductive RunState where
  | uninitialized
  | ready
  | running
  | halted (tag : FatalTag)
  deriving DecidableEq, Repr

/-- One of the two timers (R34, R35): its count, and the instant it was last started or decremented, which has no meaning
while the count is 0. -/
structure Timer where
  count : Byte
  last : Instant
  deriving DecidableEq, Repr

/-- A call of the Display port (R256): `clear()`, or `draw` with the whole framebuffer as it then was. -/
inductive DisplayEvent where
  | clear
  | draw (fb : Frame)
  deriving DecidableEq, Repr

/-- Reasons a step could stop with a fault: NONE. The core's only exceptional event is the fatal error (R240), whose entry
the spec describes (R247); it is a next state with `run = halted tag`, never a fault (notes/assumptions/1.md). -/
inductive Fault : Type
  deriving DecidableEq, Repr

/-- Reasons an instruction has no meaning. -/
inductive Refusal where
  /-- Answered only by an arm of `exec` for an instruction not modelled yet, of which there is none now: safe. -/
  | notModelled (mnemonic : String)
  deriving DecidableEq, Repr

/-- The state. The first twelve fields are the spec's (R20); `awaitingKey` is the wait state of R268; the others are the
model's own (INVENTORY.md, State). -/
structure State where
  /-- `V[0..15]`; `V[15]` is VF (R22, R25). -/
  v : Vector Byte 16
  /-- The index register `I` (R27). -/
  index : Word
  /-- The program counter (R28). -/
  pc : Word
  /-- The return stack's slots (R31, R32). -/
  stack : Vector Word 16
  /-- `SP`, the number of return addresses held, 0 to 16 (R32). -/
  sp : Fin 17
  /-- `MEM`: the bytes that differ from the reset contents, by rising address (R33, R60; see `Memory.read`). -/
  mem : List Host.Cell
  /-- `FB`, cell `col + 64*row` (R33). -/
  fb : Frame
  /-- The delay timer, `DT` and `DT_last` (R34, R35). -/
  dt : Timer
  /-- The sound timer, `ST` and `ST_last` (R34, R35). -/
  st : Timer
  /-- `CLOCK_SPEED` in Hz (R36). -/
  clockSpeed : Nat
  /-- `PACE_last` (R36). -/
  paceLast : Instant
  /-- `RUN` (R37). -/
  run : RunState
  /-- The cycle in progress is suspended in `get_key` (R223, R268). -/
  awaitingKey : Bool
  /-- The Display calls made, newest first (R256). -/
  events : List DisplayEvent
  /-- The latest clock reading (R260). -/
  now : Instant
  /-- The environment's answers in this cycle (R21). -/
  env : Env
  /-- The number of cycles begun: the index of the next `Config.environment`. -/
  cycle : Nat
  /-- The implementation's parameters (R7). -/
  params : Params
  deriving DecidableEq, Repr

/-- The state after creation and the font copy, before a ROM is loaded (R280 steps 1 and 2, R41, R42): memory lists
nothing, since an unlisted address reads as the reset contents. -/
def State.reset : State where
  v := Vector.replicate 16 0
  index := 0
  pc := 0
  stack := Vector.replicate 16 0
  sp := 0
  mem := []
  fb := 0#2048
  dt := { count := 0, last := 0 }
  st := { count := 0, last := 0 }
  clockSpeed := Config.defaultClockSpeed
  paceLast := 0
  run := .uninitialized
  awaitingKey := false
  events := []
  now := 0
  env := { random := 0, held := [], keyPress := none, execTime := 0, paceTime := 0, recordTime := 0, tickTime := 0,
           setClock := none }
  cycle := 0
  params := Config.params

end Sys2Proof.Machine
end

