-- ==== Sys2Proof/Machine/Ops.lean ====
section
/-! DEFINITION. The named operations over registers, stack, memory, framebuffer, clock and timers, and raising a fatal
error. Every meaning is written over these. -/

namespace Sys2Proof.Machine

/-! ## Registers and pc -/

/-- `V[x]` (R22, R23: every 4-bit field names a register). -/
def State.getV (s : State) (x : Nibble) : Byte := s.v[x.toNat]'x.isLt

/-- `V[x] <- b` (R22). -/
def State.setV (s : State) (x : Nibble) (b : Byte) : State := { s with v := s.v.set x.toNat b x.isLt }

/-- `I <- a` (R27). -/
def State.setIndex (s : State) (a : Word) : State := { s with index := a }

/-- `pc <- target` (R29). -/
def State.jump (s : State) (target : Word) : State := { s with pc := target }

/-- `pc <- pc_cur + 2`, modulo 65536 (R28, R29). -/
def State.advance (s : State) : State := { s with pc := s.pc + 2 }

/-- A conditional skip: `pc <- pc_cur + 4` when the condition holds, `pc <- pc_cur + 2` when not (R29, R120). -/
def State.skipIf (s : State) (c : Bool) : State := { s with pc := s.pc + if c then 4 else 2 }

/-! ## The fatal error, the core's whole trap entry -/

/-- Raise `Fatal(tag)`: `RUN <- Halted(tag)` and nothing else (R247). There is no return from it (R251). -/
def State.raiseFatal (s : State) (tag : FatalTag) : State := { s with run := .halted tag }

/-! ## Stack -/

/-- Push a return address; `none` when 16 are held (R32). -/
def State.push (s : State) (a : Word) : Option State :=
  if h : s.sp.val < 16 then
    some { s with stack := s.stack.set s.sp.val a h, sp := ⟨s.sp.val + 1, by omega⟩ }
  else none

/-- Pop the newest return address; `none` when none is held. The slot keeps its value (R32). -/
def State.pop (s : State) : Option (Word × State) :=
  if h : 0 < s.sp.val then
    some (s.stack[s.sp.val - 1]'(by omega), { s with sp := ⟨s.sp.val - 1, by omega⟩ })
  else none

/-! ## Memory -/

/-- The highest address, `0xFFF` (R60, R63). -/
def topAddress : Nat := 0xFFF

/-- The font's place (R30, R61). -/
def fontBase : Nat := 0x050

/-- The default font, 16 glyphs of 5 bytes, first byte the top row (R30; general knowledge, notes/assumptions/2.md). -/
def defaultFont : List Byte :=
  [0xF0, 0x90, 0x90, 0x90, 0xF0, 0x20, 0x60, 0x20, 0x20, 0x70, 0xF0, 0x10, 0xF0, 0x80, 0xF0, 0xF0, 0x10, 0xF0, 0x10, 0xF0] ++
  [0x90, 0x90, 0xF0, 0x10, 0x10, 0xF0, 0x80, 0xF0, 0x10, 0xF0, 0xF0, 0x80, 0xF0, 0x90, 0xF0, 0xF0, 0x10, 0x20, 0x40, 0x40] ++
  [0xF0, 0x90, 0xF0, 0x90, 0xF0, 0xF0, 0x90, 0xF0, 0x10, 0xF0, 0xF0, 0x90, 0xF0, 0x90, 0x90, 0xE0, 0x90, 0xE0, 0x90, 0xE0] ++
  [0xF0, 0x80, 0x80, 0x80, 0xF0, 0xE0, 0x90, 0x90, 0x90, 0xE0, 0xF0, 0x80, 0xF0, 0x80, 0xF0, 0xF0, 0x80, 0xF0, 0x80, 0x80]

/-- What an address that memory does not list reads as: its reset contents, the font at `0x050` upward and zero
elsewhere (R41, R61). -/
def Memory.unlisted (a : Nat) : Byte := if a < fontBase then 0 else defaultFont.getD (a - fontBase) 0

/-- The byte at an address: the listed one, else the reset contents. -/
def Memory.read : List Host.Cell → Nat → Byte
  | [], a => Memory.unlisted a
  | (b, v) :: rest, a => if a = b then v else Memory.read rest a

/-- The byte put before a list of higher cells, unless it is what the address reads as unlisted. -/
def Memory.put (a : Nat) (v : Byte) (rest : List Host.Cell) : List Host.Cell :=
  if v = Memory.unlisted a then rest else (a, v) :: rest

/-- Memory with one byte written; a write changes exactly that byte (R69) and keeps the canonical form. -/
def Memory.write : List Host.Cell → Nat → Byte → List Host.Cell
  | [], a, v => Memory.put a v []
  | (b, w) :: rest, a, v =>
    if a < b then Memory.put a v ((b, w) :: rest)
    else if a = b then Memory.put a v rest
    else (b, w) :: Memory.write rest a v

/-- Bytes written one after another from an address upward (R69: ascending order). -/
def Memory.writeBytes : List Host.Cell → Nat → List Byte → List Host.Cell
  | m, _, [] => m
  | m, a, v :: rest => Memory.writeBytes (Memory.write m a v) (a + 1) rest

/-- The canonical form: addresses strictly rising, all at most `0xFFF`, no byte equal to what it would read as unlisted. -/
abbrev Memory.WF (m : List Host.Cell) : Prop :=
  m.Pairwise (fun c d => c.1 < d.1) ∧ ∀ c ∈ m, c.1 ≤ topAddress ∧ c.2 ≠ Memory.unlisted c.1

/-- The bounds check of an instruction that uses `count` consecutive bytes from `base` up: the highest address is at most
`0xFFF`, and an instruction that makes no access cannot fail it (R64, R65). The sum is not reduced (D10). -/
def inRange (base count : Nat) : Bool := count == 0 || base + count - 1 ≤ topAddress

/-- Do `k` if the `count` bytes from `base` up lie in memory, else raise `MemoryOutOfBounds` with no other effect (R65). -/
def State.ifInRange (s : State) (base count : Nat) (k : State) : State :=
  if inRange base count then k else s.raiseFatal .memoryOutOfBounds

/-- The byte at an address (R64, after its check). -/
def State.readByte (s : State) (a : Nat) : Byte := Memory.read s.mem a

/-- One byte written (R64, after its check). -/
def State.writeByte (s : State) (a : Nat) (v : Byte) : State := { s with mem := Memory.write s.mem a v }

/-- `for k = 0 to count - 1: MemWrite(base + k, 1, V[k])` (R185). -/
def State.storeRegs (s : State) (base : Nat) : Nat → State
  | 0 => s
  | k + 1 => (State.storeRegs s base k).writeByte (base + k) (s.getV (BitVec.ofNat 4 k))

/-- `for k = 0 to count - 1: V[k] <- MemRead(base + k, 1)` (R186). -/
def State.loadRegs (s : State) (base : Nat) : Nat → State
  | 0 => s
  | k + 1 => (State.loadRegs s base k).setV (BitVec.ofNat 4 k) (s.readByte (base + k))

/-! ## Framebuffer -/

/-- The cell at column `c` and row `r`, reduced into range (R75). -/
def cellIndex (c r : Nat) : Nat := c % 64 + 64 * (r % 32)

/-- Whether cell `k` is set (R33). -/
def cellAt (fb : Frame) (k : Nat) : Bool := fb.getLsbD k

/-- The framebuffer with cell `k` toggled (R200). -/
def toggleCell (fb : Frame) (k : Nat) : Frame := fb ^^^ BitVec.twoPow 2048 k

/-- A picture being drawn: the framebuffer so far, and whether a set cell has been cleared. -/
structure Canvas where
  fb : Frame
  hit : Bool
  deriving DecidableEq, Repr

/-- One set sprite bit over cell `k`: a set cell counts as a hit, and the cell is toggled (R202). -/
def Canvas.plot (p : Canvas) (k : Nat) : Canvas := { fb := toggleCell p.fb k, hit := p.hit || cellAt p.fb k }

/-- The first `count` columns of a sprite row with byte `b`; column `c` is bit `7 - c` (R203). -/
def Canvas.drawColumns (p : Canvas) (b : Byte) (col row : Nat) : Nat → Canvas
  | 0 => p
  | c + 1 =>
    let q := Canvas.drawColumns p b col row c
    if b.getLsbD (7 - c) then q.plot (cellIndex (col + c) row) else q

/-- The first `count` rows of the sprite whose bytes lie at `base` upward, its corner at `(col, row)` (R202). -/
def Canvas.drawRows (p : Canvas) (mem : List Host.Cell) (base col row : Nat) : Nat → Canvas
  | 0 => p
  | r + 1 => (Canvas.drawRows p mem base col row r).drawColumns (Memory.read mem (base + r)) col (row + r) 8

/-- A Display call recorded (R256). -/
def State.signal (s : State) (e : DisplayEvent) : State := { s with events := e :: s.events }

/-! ## Clock and timers -/

/-- The later of two instants. -/
def laterOf (a b : Instant) : Instant := if a ≤ b then b else a

/-- `Now()` answering a reading: the clock never goes backwards (R260). -/
def State.readClock (s : State) (reading : Instant) : State := { s with now := laterOf s.now reading }

/-- `start(value)` (R252, R253). -/
def Timer.start (value : Byte) (t : Instant) : Timer := { count := value, last := t }

/-- `value()` (R252, R253). -/
def Timer.value (T : Timer) : Byte := T.count

/-- `tick()` at instant `t`: one decrement if the count is nonzero and a period has passed since the last (R252). -/
def Timer.tick (T : Timer) (period : ℚ) (t : Instant) : Timer :=
  if T.count ≠ 0 ∧ period ≤ t - T.last then { count := T.count - 1, last := t } else T

/-- The pacer's interval in milliseconds: `1,000,000 / clock_speed` microseconds, exact or truncated (R293, D25). -/
def paceInterval (truncated : Bool) (clockSpeed : Nat) : ℚ :=
  if truncated then ((1000000 / clockSpeed : Nat) : ℚ) / 1000 else 1000000 / (clockSpeed : ℚ) / 1000

/-- The instant at which the pacer may go on, given when the phase began: at once if the interval has passed since
`PACE_last`, else when it has (R293: "blocks the calling thread for the remaining difference"). -/
def paceRelease (last : Instant) (interval : ℚ) (begun : Instant) : Instant :=
  if begun - last < interval then last + interval else begun

/-- The pace phase: wait if need be, then record the instant (R293, D25). It changes only `PACE_last` (and the model's
clock). -/
def State.pace (s : State) : State :=
  let begun := laterOf s.now s.env.paceTime
  let released := paceRelease s.paceLast (paceInterval s.params.paceTruncated s.clockSpeed) begun
  let recorded := laterOf released s.env.recordTime
  { s with now := recorded, paceLast := recorded }

/-- The tick phase (R252, R253): both timers, at one reading of the clock (R260). -/
def State.tickTimers (s : State) : State :=
  let c := s.readClock s.env.tickTime
  { c with dt := c.dt.tick c.params.timerPeriod c.now, st := c.st.tick c.params.timerPeriod c.now }

/-! ## The host's ports -/

/-- The value a clock-speed setting stores: 0 stores the default (R261, R295). -/
def clockSetting (hz : Nat) : Nat := if hz = 0 then Config.defaultClockSpeed else hz

/-- The configuration port (R261). Between cycles only: while a cycle is suspended in `get_key` there is no such setting,
since a host that makes one is outside the spec (R262, R289). -/
def State.setClockSpeed (s : State) (hz : Nat) : Option State :=
  if s.awaitingKey then none else some { s with clockSpeed := clockSetting hz }

/-- Where a program is loaded and starts (R6, R61). -/
def programBase : Nat := 0x200

/-- Why the load port reports a load error to the host (R264, R284). -/
inductive LoadError where
  /-- The machine is not `Uninitialized`. R283 allows a load only there and does not say what another answers; that it is a
  load error is the model's choice (DESIGN CHOICE, safe; notes/assumptions/13.md). -/
  | notUninitialized
  /-- The image is empty (R283: "validated non-empty"). -/
  | emptyImage
  /-- The image exceeds `ROM_MAX`, which is at most 3584, so that an accepted image ends at or below `0xFFF` (R283). -/
  | tooLarge
  deriving DecidableEq, Repr

/-- `Load(rom)` at a clock reading (R283). A load error leaves the state the host holds as it was (R284); that a load outside
`Uninitialized` is one is the model's choice (DESIGN CHOICE, safe; notes/assumptions/13.md). -/
def State.load (s : State) (rom : List Byte) (reading : Instant) : Except LoadError State :=
  if s.run ≠ .uninitialized then .error .notUninitialized
  else if rom = [] then .error .emptyImage
  else if s.params.romMax < rom.length then .error .tooLarge
  else
    let c := s.readClock reading
    .ok { c with mem := Memory.writeBytes s.mem programBase rom, pc := BitVec.ofNat 16 programBase,
                 paceLast := c.now, run := .ready }

/-- The initial-state constructor (R281): the state after creation with a font, parameters and a clock speed. -/
def State.initial (font : List Byte) (params : Params) (hz : Nat) : State :=
  { State.reset with
    mem := Memory.writeBytes [] fontBase (font.take 80), params := params, clockSpeed := clockSetting hz }

/-! ## Fetch and the phases around an instruction -/

/-- The instruction word at `pc`, big-endian; both bytes must lie in memory (R66). -/
def State.fetch (s : State) : Except FatalTag Word :=
  if s.pc.toNat + 1 ≤ topAddress then
    .ok (wordOfBytes (s.readByte s.pc.toNat) (s.readByte (s.pc.toNat + 1)))
  else .error .fetchOutOfBounds

/-- A cycle begins: the environment's answers for it are taken, a clock speed the host has set since the last cycle is
stored through the configuration port (R261, which takes none while a cycle is suspended in `get_key`, R289), and
`RUN <- Running` (R262). -/
def State.beginCycle (s : State) : State :=
  let env := Config.environment s.cycle
  { s with
    run := .running
    awaitingKey := false
    env := env
    cycle := s.cycle + 1
    clockSpeed := ((env.setClock.bind s.setClockSpeed).getD s).clockSpeed }

/-- The end of a cycle: pace, then tick both timers (R262). Neither happens after a fatal error (R247) nor while the
instruction is suspended waiting for a key (R223). -/
def State.endCycle (s : State) : State :=
  if s.run = .running ∧ s.awaitingKey = false then s.pace.tickTimers else s

/-- The place the next step fetches from when it can fetch from `pc`, else the place a loaded program starts at. -/
def State.fetchPlace (s : State) : Word :=
  if (s.run = .ready ∨ s.run = .running) ∧ s.pc.toNat + 1 ≤ topAddress then s.pc else BitVec.ofNat 16 programBase

/-- The state with an instruction word stored where the next step fetches, and able to fetch it: from a state that runs
nothing (uninitialized or halted) it is made `Ready`, as a load does (R263; notes/assumptions/12.md). -/
def State.placeWord (s : State) (w : Word) : State :=
  { s with
    mem := Memory.writeBytes s.mem s.fetchPlace.toNat (bytesOfWord w)
    pc := s.fetchPlace
    run := if s.run = .running then .running else .ready }

end Sys2Proof.Machine
end

