-- ==== Sys2Proof/Machine/Operands.lean ====
section
/-! DEFINITION. The operand forms: immediates and addresses (30_encoding.md R94, 42_index_memory.md R180). -/

namespace Sys2Proof.Machine

/-- VF, register 15 (R9, R25). -/
def flagReg : Nibble := 0xF

/-- V0, register 0, the offset of `BNNN` (R22). -/
def offsetReg : Nibble := 0x0

/-- `nnn` zero-extended to 16 bits (R94). -/
def zextAddr (nnn : Addr) : Word := nnn.setWidth 16

/-- A register's value zero-extended to 16 bits (R8, R182). -/
def zextByte (b : Byte) : Word := b.setWidth 16

/-- The effective address with offset 0: `I` as an unbounded integer (R180). -/
def State.baseAddress (s : State) : Nat := s.index.toNat

/-- How many registers `V0` to `Vx` are (R185: the range is inclusive). -/
def regCount (x : Nibble) : Nat := x.toNat + 1

/-- The address of the font glyph of a digit, the low nibble of the byte: `0x050 + 5 * (v & 0xF)` (R183). -/
def glyphAddress (v : Byte) : Word := 0x050 + 5 * zextByte (v &&& 0x0F)

/-- The decimal digits hundreds, tens, units of a byte (R184). -/
def bcdDigits (v : Byte) : List Byte :=
  [BitVec.ofNat 8 (v.toNat / 100), BitVec.ofNat 8 (v.toNat / 10 % 10), BitVec.ofNat 8 (v.toNat % 10)]

/-- The answer of `KeyInput.is_key_pressed(k)`; the whole 8-bit code is passed (R221, R257). -/
def State.isKeyPressed (s : State) (k : Byte) : Bool := s.env.held.contains k

end Sys2Proof.Machine
end

