-- ==== Sys2Proof/Machine/Flags.lean ====
section
/-! DEFINITION. The values VF receives (10_state.md R25, 41_register_alu.md R150), each exactly 0 or 1, and its write. -/

namespace Sys2Proof.Machine

/-- 0 or 1 for a condition. -/
def flagOf (c : Bool) : Byte := if c then 1 else 0

/-- The carry of `8XY4`: the exact sum exceeds 255 (R157). -/
def carryFlag (a b : Byte) : Byte := flagOf (decide (a.toNat + b.toNat > 255))

/-- The NOT-borrow of `8XY5` and `8XY7`: the minuend is greater than or equal to the subtrahend (R158, R160). -/
def notBorrowFlag (minuend subtrahend : Byte) : Byte := flagOf (decide (minuend.toNat ≥ subtrahend.toNat))

/-- The bit `8XY6` shifts out, bit 0 (R159). -/
def lowBitFlag (a : Byte) : Byte := flagOf (a.getLsbD 0)

/-- The bit `8XYE` shifts out, bit 7, normalised to 0 or 1 (R161). -/
def highBitFlag (a : Byte) : Byte := flagOf (a.getLsbD 7)

/-- The 16-bit overflow of `FX1E` (R182). -/
def overflowFlag (i : Word) (b : Byte) : Byte := flagOf (decide (i.toNat + b.toNat > 0xFFFF))

/-- The collision flag of `DXYN` (R202). -/
def collisionFlag (hit : Bool) : Byte := flagOf hit

/-- `V[15] <- flag`, the last register write of a flag-setting instruction (R25, R26). -/
def State.setFlag (s : State) (flag : Byte) : State := s.setV flagReg flag

end Sys2Proof.Machine
end

