-- ==== Sys2Proof/Machine/Display.lean ====
section
/-! DEFINITION. The framebuffer instructions (43_display.md R200 to R205). -/

namespace Sys2Proof.Machine

/-- `00E0` CLS: zero the framebuffer and signal `Display.clear()` (R201, R256). -/
def execCls (s : State) : Host.Outcome State Fault Refusal :=
  .next ({ s with fb := 0#2048 }.signal .clear).advance

/-- The picture after drawing the `n`-row sprite at `I` with its corner at `(vx, vy)` (R202). -/
def State.drawn (s : State) (vx vy : Byte) (n : Nibble) : Canvas :=
  ({ fb := s.fb, hit := false } : Canvas).drawRows s.mem s.baseAddress vx.toNat vy.toNat n.toNat

/-- The framebuffer written, then VF, then `Display.draw` with the whole buffer (R202, R256). -/
def State.show (s : State) (p : Canvas) : State :=
  ({ s with fb := p.fb }.setFlag (collisionFlag p.hit)).signal (.draw p.fb)

/-- `DXYN` DRW Vx, Vy, n (R202, R204). -/
def execDrw (x y n : Nibble) (s : State) : Host.Outcome State Fault Refusal :=
  .next (s.ifInRange s.baseAddress n.toNat (s.show (s.drawn (s.getV x) (s.getV y) n)).advance)

end Sys2Proof.Machine
end

