-- ==== Sys2Proof/Machine/FlowControl.lean ====
section
/-! DEFINITION. Return, call, jumps and conditional skips (40_flow_control.md R120 to R128). -/

namespace Sys2Proof.Machine

/-- `00EE` RET: pop, then `pc <- (popped + 2) mod 65536`; an empty stack is fatal (R121). -/
def execRet (s : State) : Host.Outcome State Fault Refusal :=
  .next (match s.pop with
    | some (a, t) => t.jump (a + 2)
    | none => s.raiseFatal .stackUnderflow)

/-- `1NNN` JP nnn (R124). -/
def execJp (nnn : Addr) (s : State) : Host.Outcome State Fault Refusal := .next (s.jump (zextAddr nnn))

/-- `2NNN` CALL nnn: push the address of this instruction; a full stack is fatal (R122). -/
def execCall (nnn : Addr) (s : State) : Host.Outcome State Fault Refusal :=
  .next (match s.push s.pc with
    | some t => t.jump (zextAddr nnn)
    | none => s.raiseFatal .stackOverflow)

/-- `BNNN` JP V0, nnn (R123). -/
def execJpV0 (nnn : Addr) (s : State) : Host.Outcome State Fault Refusal :=
  .next (s.jump (zextByte (s.getV offsetReg) + zextAddr nnn))

/-- `3XNN` SE Vx, nn (R125). -/
def execSeImm (x : Nibble) (nn : Byte) (s : State) : Host.Outcome State Fault Refusal :=
  .next (s.skipIf (s.getV x == nn))

/-- `4XNN` SNE Vx, nn (R126). -/
def execSneImm (x : Nibble) (nn : Byte) (s : State) : Host.Outcome State Fault Refusal :=
  .next (s.skipIf (s.getV x != nn))

/-- `5XY0` SE Vx, Vy (R127). -/
def execSeReg (x y : Nibble) (s : State) : Host.Outcome State Fault Refusal :=
  .next (s.skipIf (s.getV x == s.getV y))

/-- `9XY0` SNE Vx, Vy (R128). -/
def execSneReg (x y : Nibble) (s : State) : Host.Outcome State Fault Refusal :=
  .next (s.skipIf (s.getV x != s.getV y))

end Sys2Proof.Machine
end

