-- ==== Sys2Proof/Machine/IndexMemory.lean ====
section
/-! DEFINITION. Index register and memory instructions (42_index_memory.md R180 to R186). -/

namespace Sys2Proof.Machine

/-- `ANNN` LD I, nnn (R181). -/
def execLdI (nnn : Addr) (s : State) : Host.Outcome State Fault Refusal := .next (s.setIndex (zextAddr nnn)).advance

/-- `FX1E` ADD I, Vx: VF is the overflow of the 16-bit register (R182). -/
def execAddI (x : Nibble) (s : State) : Host.Outcome State Fault Refusal :=
  .next ((s.setIndex (s.index + zextByte (s.getV x))).setFlag (overflowFlag s.index (s.getV x))).advance

/-- `FX29` LD F, Vx (R183). -/
def execLdF (x : Nibble) (s : State) : Host.Outcome State Fault Refusal :=
  .next (s.setIndex (glyphAddress (s.getV x))).advance

/-- `FX33` LD B, Vx: three digits at `I`, `I + 1`, `I + 2` (R184). -/
def execLdB (x : Nibble) (s : State) : Host.Outcome State Fault Refusal :=
  .next (s.ifInRange s.baseAddress 3
    { s with mem := Memory.writeBytes s.mem s.baseAddress (bcdDigits (s.getV x)) }.advance)

/-- `FX55` LD [I], Vx: `V0` to `Vx` at `I` upward; `I` is unchanged (R185). -/
def execLdMemVx (x : Nibble) (s : State) : Host.Outcome State Fault Refusal :=
  .next (s.ifInRange s.baseAddress (regCount x) (s.storeRegs s.baseAddress (regCount x)).advance)

/-- `FX65` LD Vx, [I]: `V0` to `Vx` from `I` upward; `I` is unchanged (R186). -/
def execLdVxMem (x : Nibble) (s : State) : Host.Outcome State Fault Refusal :=
  .next (s.ifInRange s.baseAddress (regCount x) (s.loadRegs s.baseAddress (regCount x)).advance)

end Sys2Proof.Machine
end

