-- ==== Sys2Proof/Machine/KeysTimers.lean ====
section
/-! DEFINITION. Key and timer instructions (44_keys_timers.md R220 to R226). -/

namespace Sys2Proof.Machine

/-- `EX9E` SKP Vx (R221). -/
def execSkp (x : Nibble) (s : State) : Host.Outcome State Fault Refusal :=
  .next (s.skipIf (s.isKeyPressed (s.getV x)))

/-- `EXA1` SKNP Vx (R222). -/
def execSknp (x : Nibble) (s : State) : Host.Outcome State Fault Refusal :=
  .next (s.skipIf (!s.isKeyPressed (s.getV x)))

/-- `FX0A` LD Vx, K: with a key press observed, its code goes to `V[x]`; without one the instruction stays suspended and
nothing of the spec's state changes (R223, D30). -/
def execLdVxK (x : Nibble) (s : State) : Host.Outcome State Fault Refusal :=
  .next (match s.env.keyPress with
    | some k => { (s.setV x (k.setWidth 8)) with awaitingKey := false }.advance
    | none => { s with awaitingKey := true })

/-- `FX07` LD Vx, DT (R224). -/
def execLdVxDt (x : Nibble) (s : State) : Host.Outcome State Fault Refusal := .next (s.setV x s.dt.value).advance

/-- `FX15` LD DT, Vx: start the delay timer (R225, R253). -/
def execLdDtVx (x : Nibble) (s : State) : Host.Outcome State Fault Refusal :=
  let c := s.readClock s.env.execTime
  .next { c with dt := Timer.start (s.getV x) c.now }.advance

/-- `FX18` LD ST, Vx: start the sound timer (R226, R253). -/
def execLdStVx (x : Nibble) (s : State) : Host.Outcome State Fault Refusal :=
  let c := s.readClock s.env.execTime
  .next { c with st := Timer.start (s.getV x) c.now }.advance

end Sys2Proof.Machine
end

