-- ==== Sys2Proof/Machine/RegisterAlu.lean ====
section
/-! DEFINITION. Register load, arithmetic, logic, shift and random (41_register_alu.md R150 to R162). -/

namespace Sys2Proof.Machine

/-- Write a result to `V[x]` and advance (R151 to R156). -/
def State.finish (s : State) (x : Nibble) (result : Byte) : State := (s.setV x result).advance

/-- Write a result to `V[x]`, the flag to VF after it, and advance (R26, R157 to R161). -/
def State.finishFlag (s : State) (x : Nibble) (result flag : Byte) : State := ((s.setV x result).setFlag flag).advance

/-- `6XNN` LD Vx, nn (R151). -/
def execLdImm (x : Nibble) (nn : Byte) (s : State) : Host.Outcome State Fault Refusal := .next (s.finish x nn)

/-- `7XNN` ADD Vx, nn: no flag (R152). -/
def execAddImm (x : Nibble) (nn : Byte) (s : State) : Host.Outcome State Fault Refusal :=
  .next (s.finish x (s.getV x + nn))

/-- `8XY0` LD Vx, Vy (R153). -/
def execLdReg (x y : Nibble) (s : State) : Host.Outcome State Fault Refusal := .next (s.finish x (s.getV y))

/-- `8XY1` OR Vx, Vy (R154). -/
def execOrReg (x y : Nibble) (s : State) : Host.Outcome State Fault Refusal :=
  .next (s.finish x (s.getV x ||| s.getV y))

/-- `8XY2` AND Vx, Vy (R155). -/
def execAndReg (x y : Nibble) (s : State) : Host.Outcome State Fault Refusal :=
  .next (s.finish x (s.getV x &&& s.getV y))

/-- `8XY3` XOR Vx, Vy (R156). -/
def execXorReg (x y : Nibble) (s : State) : Host.Outcome State Fault Refusal :=
  .next (s.finish x (s.getV x ^^^ s.getV y))

/-- `8XY4` ADD Vx, Vy (R157). -/
def execAddReg (x y : Nibble) (s : State) : Host.Outcome State Fault Refusal :=
  .next (s.finishFlag x (s.getV x + s.getV y) (carryFlag (s.getV x) (s.getV y)))

/-- `8XY5` SUB Vx, Vy (R158). -/
def execSub (x y : Nibble) (s : State) : Host.Outcome State Fault Refusal :=
  .next (s.finishFlag x (s.getV x - s.getV y) (notBorrowFlag (s.getV x) (s.getV y)))

/-- `8XY6` SHR Vx: a logical shift of `V[x]`; the `y` field is ignored (R159, R100). -/
def execShr (x _y : Nibble) (s : State) : Host.Outcome State Fault Refusal :=
  .next (s.finishFlag x (s.getV x >>> 1) (lowBitFlag (s.getV x)))

/-- `8XY7` SUBN Vx, Vy (R160). -/
def execSubn (x y : Nibble) (s : State) : Host.Outcome State Fault Refusal :=
  .next (s.finishFlag x (s.getV y - s.getV x) (notBorrowFlag (s.getV y) (s.getV x)))

/-- `8XYE` SHL Vx; the `y` field is ignored (R161, R100). -/
def execShl (x _y : Nibble) (s : State) : Host.Outcome State Fault Refusal :=
  .next (s.finishFlag x (s.getV x <<< 1) (highBitFlag (s.getV x)))

/-- `CXNN` RND Vx, nn: the random byte is the environment's (R162, R259). -/
def execRnd (x : Nibble) (nn : Byte) (s : State) : Host.Outcome State Fault Refusal :=
  .next (s.finish x (s.env.random &&& nn))

end Sys2Proof.Machine
end

