-- ==== Sys2Proof/Machine/Step.lean ====
section
/-! DEFINITION. One step: one run-loop cycle, performed when the host asks for it (60_exceptions.md R262, R263). -/

namespace Sys2Proof.Machine

/-- One cycle of a core that can run: begin, fetch, decode, execute one instruction, and end (R262); the order of checks
is R248's. -/
def runCycle (s : State) : Host.Outcome State Fault Refusal :=
  let c := s.beginCycle
  match c.fetch with
  | .error tag => .next (c.raiseFatal tag)
  | .ok w =>
    match decodeWord w with
    | none => .next (c.raiseFatal .unknownOpcode)
    | some i =>
      match exec i c with
      | .next t => .next t.endCycle
      | .fault f => .fault f
      | .refused r => .refused r

/-- One step. Before a ROM is loaded it is the fatal `MissingRom` (R246); in `Halted` it changes nothing (R263). -/
def step (s : State) : Host.Outcome State Fault Refusal :=
  match s.run with
  | .uninitialized => .next (s.raiseFatal .missingRom)
  | .halted _ => .next s
  | .ready => runCycle s
  | .running => runCycle s

/-- The host's placement of one instruction word: `s` with it stored where `step` fetches next, and able to fetch it. -/
def State.withFetchWord (s : State) (nbits w : Nat) : State := s.placeWord (BitVec.ofNat 16 (w % 2 ^ nbits))

end Sys2Proof.Machine
end

