-- ==== Sys2Proof/Safety.lean ====
section
/-! DEFINITION. What holds along every run: the invariant of the state (10_state.md R29, R40), the states the host can
bring the machine to, and the classes of instructions the rules name. -/

namespace Sys2Proof.Machine

/-- The invariant: memory is in canonical form inside `0x000..0xFFF` (R40, R60); the clock speed is positive (R36, R295);
`pc` is at most `0x10FE` and every live return address was fetched from, so no `pc` sum ever wraps (R29); and no recorded
instant lies after the clock (R35, R36, R260). -/
structure State.Inv (s : State) : Prop where
  memWF : Memory.WF s.mem
  clockPositive : 0 < s.clockSpeed
  pcBound : s.pc.toNat ≤ 0x10FE
  stackBound : ∀ k : Fin 16, k.val < s.sp.val → (s.stack[k.val]'k.isLt).toNat ≤ 0xFFE
  dtPast : s.dt.last ≤ s.now
  stPast : s.st.last ≤ s.now
  pacePast : s.paceLast ≤ s.now

/-- The states the host can bring the machine to: created, loaded, its clock speed set between cycles, and stepped (R261,
R263, R283, R289). -/
inductive Reachable : State → Prop where
  | created (font : List Byte) (params : Params) (hz : Nat) : Reachable (State.initial font params hz)
  | loaded {s t : State} (rom : List Byte) (reading : Instant) :
      Reachable s → s.load rom reading = .ok t → Reachable t
  | configured {s t : State} (hz : Nat) : Reachable s → s.setClockSpeed hz = some t → Reachable t
  | stepped {s t : State} : Reachable s → step s = .next t → Reachable t

/-- The instruction answers a next state in which register `x` holds `b`, every other register is unchanged, `pc` has
advanced by 2, and nothing else has changed (the shape of R151 to R156, R162, R224). -/
def WritesResult (i : Instr) (s : State) (x : Nibble) (b : Byte) : Prop :=
  ∃ t, exec i s = .next t ∧ t = { s with v := t.v, pc := s.pc + 2 } ∧
    ∀ r, t.getV r = if r = x then b else s.getV r

/-- The instruction answers a next state in which VF holds `f`, register `x` holds `b` unless it is VF, every other register
is unchanged, `pc` has advanced by 2, and nothing else has changed (the shape of R157 to R161; result first, flag last, R26). -/
def WritesResultAndFlag (i : Instr) (s : State) (x : Nibble) (b f : Byte) : Prop :=
  ∃ t, exec i s = .next t ∧ t = { s with v := t.v, pc := s.pc + 2 } ∧
    ∀ r, t.getV r = if r = 15 then f else if r = x then b else s.getV r

/-- A set bit of the `n`-row sprite at `I`, drawn with its corner at `(vx, vy)`, falls on cell `k`: row `r` of the sprite is
the byte at `I + r`, column `c` its bit `7 - c`, and both coordinates wrap (R202, R203). -/
def State.spriteCovers (s : State) (vx vy : Byte) (n : Nibble) (k : Nat) : Prop :=
  ∃ r c, r < n.toNat ∧ c < 8 ∧ (s.readByte (s.index.toNat + r)).getLsbD (7 - c) = true ∧
    k = (vx.toNat + c) % 64 + 64 * ((vy.toNat + r) % 32)

end Sys2Proof.Machine

namespace Sys2Proof

/-- The instructions that set VF as a flag, exactly seven (R25). -/
def Instr.setsFlag : Instr → Bool
  | .addReg _ _ | .sub _ _ | .shr _ _ | .subn _ _ | .shl _ _ | .drw _ _ _ | .addI _ => true
  | .cls | .ret | .jp _ | .call _ | .seImm _ _ | .sneImm _ _ | .seReg _ _ | .ldImm _ _ | .addImm _ _ | .ldReg _ _
  | .orReg _ _ | .andReg _ _ | .xorReg _ _ | .sneReg _ _ | .ldI _ | .jpV0 _ | .rnd _ _ | .skp _ | .sknp _ | .ldVxDt _
  | .ldVxK _ | .ldDtVx _ | .ldStVx _ | .ldF _ | .ldB _ | .ldMemVx _ | .ldVxMem _ => false

/-- The register an instruction writes a result to, where it writes one register (R22, R151 to R162, R223, R224). -/
def Instr.destination : Instr → Option Nibble
  | .ldImm x _ | .addImm x _ | .ldReg x _ | .orReg x _ | .andReg x _ | .xorReg x _ | .addReg x _ | .sub x _ | .shr x _
  | .subn x _ | .shl x _ | .rnd x _ | .ldVxDt x | .ldVxK x => some x
  | .cls | .ret | .jp _ | .call _ | .seImm _ _ | .sneImm _ _ | .seReg _ _ | .sneReg _ _ | .ldI _ | .jpV0 _ | .drw _ _ _
  | .skp _ | .sknp _ | .ldDtVx _ | .ldStVx _ | .addI _ | .ldF _ | .ldB _ | .ldMemVx _ | .ldVxMem _ => none

/-- How many bytes from `I` upward an instruction stores (R69: `FX33` three, `FX55` `x + 1`, no other any). -/
def Instr.storedBytes : Instr → Nat
  | .ldB _ => 3
  | .ldMemVx x => x.toNat + 1
  | .cls | .ret | .jp _ | .call _ | .seImm _ _ | .sneImm _ _ | .seReg _ _ | .ldImm _ _ | .addImm _ _ | .ldReg _ _
  | .orReg _ _ | .andReg _ _ | .xorReg _ _ | .addReg _ _ | .sub _ _ | .shr _ _ | .subn _ _ | .shl _ _ | .sneReg _ _
  | .ldI _ | .jpV0 _ | .rnd _ _ | .drw _ _ _ | .skp _ | .sknp _ | .ldVxDt _ | .ldVxK _ | .ldDtVx _ | .ldStVx _
  | .addI _ | .ldF _ | .ldVxMem _ => 0

end Sys2Proof
end

