-- ==== Sys2Proof/Certificates/Slice0/Obligations.lean ====
section
/-! DEFINITION. The statements for the provers. Each docstring names the rules of spec/ it formalises; where it rests on a
decision of the spec (92_eei_decisions.md) or of the model (notes/assumptions) it says so. -/

open Sys2Proof Sys2Proof.Machine

/-! ## Encoding -/

/-- A few words read as 30_encoding.md R96 writes them, two refusals among them (vectors of 95_test_vectors.md 2.1). -/
def Obligations.SpecWordsDecode : Prop :=
  decode [0x00, 0xE0] = .ok (.cls, []) ∧ decode [0x00, 0xEE, 0x12] = .ok (.ret, [0x12]) ∧
  decode [0x12, 0x34] = .ok (.jp 0x234, []) ∧ decode [0x4F, 0xFE] = .ok (.sneImm 0xF 0xFE, []) ∧
  decode [0x81, 0x24] = .ok (.addReg 1 2, []) ∧ decode [0xA2, 0xF0] = .ok (.ldI 0x2F0, []) ∧
  decode [0xD1, 0x2A] = .ok (.drw 1 2 0xA, []) ∧ decode [0xE2, 0x9E] = .ok (.skp 2, []) ∧
  decode [0xF1, 0x65] = .ok (.ldVxMem 1, []) ∧ decode [0x51, 0x21] = .error (.unknownOpcode 0x5121) ∧
  decode [0x00] = .error .truncated

/-- Decoding the bytes of an encoded instruction gives it back with every operand, and leaves the bytes after it (R90 to
R96). Every term of `Instr` is well formed, its operands having the widths of their fields. -/
def Obligations.DecodeInvertsEncode : Prop :=
  ∀ (i : Instr) (rest : List Byte), decode (bytesOfWord (encode i) ++ rest) = .ok (i, rest)

/-- A word that decodes has no other spelling than the encoding of its instruction: no bit is dropped (R92, R93, R96). -/
def Obligations.EncodeInvertsDecode : Prop :=
  ∀ (w : Word) (i : Instr), decodeWord w = some i → encode i = w

/-- R95: a word decodes to the row whose `(IW & mask) = match`, to nothing when no row matches, and the rows are pairwise
disjoint (strict decoding is decision D12). -/
def Obligations.DecodeFollowsOpcodeMap : Prop :=
  (∀ (w : Word) (i : Instr), decodeWord w = some i → i.row ∈ opcodeMap ∧ i.row.matchesWord w = true) ∧
  (∀ w : Word, decodeWord w = none ↔ ∀ r ∈ opcodeMap, r.matchesWord w = false) ∧
  (∀ r ∈ opcodeMap, ∀ q ∈ opcodeMap, ∀ w : Word, r.matchesWord w = true → q.matchesWord w = true → r = q)

/-- R98: the unknown opcodes are exactly the words listed there by family, and executing one raises `UnknownOpcode` and
changes nothing else (of the state as the cycle found it). -/
def Obligations.UnknownOpcodesHalt : Prop :=
  (∀ w : Word, decodeWord w = none ↔
    (fieldOp w = 0x0 ∧ fieldNNN w ≠ 0x0E0 ∧ fieldNNN w ≠ 0x0EE) ∨
    (fieldOp w = 0x5 ∧ fieldN w ≠ 0) ∨ (fieldOp w = 0x9 ∧ fieldN w ≠ 0) ∨
    (fieldOp w = 0x8 ∧ fieldN w ∈ [0x8, 0x9, 0xA, 0xB, 0xC, 0xD, 0xF]) ∨
    (fieldOp w = 0xE ∧ fieldNN w ≠ 0x9E ∧ fieldNN w ≠ 0xA1) ∨
    (fieldOp w = 0xF ∧ fieldNN w ∉ [0x07, 0x0A, 0x15, 0x18, 0x1E, 0x29, 0x33, 0x55, 0x65])) ∧
  (∀ (s : State) (w : Word), s.run = .ready ∨ s.run = .running → s.fetch = .ok w → decodeWord w = none →
    step s = .next { s.beginCycle with run := .halted .unknownOpcode })

/-! ## The cycle -/

/-- When the bytes at `pc` decode to an instruction, a step of a loaded, unhalted core is that instruction's meaning on the
state the cycle begins with, and the end of the cycle after it (R262). -/
def Obligations.StepRunsDecodedInstruction : Prop :=
  ∀ (s : State) (i : Instr), s.run = .ready ∨ s.run = .running → s.pc.toNat + 1 ≤ 0xFFF →
    decode [s.readByte s.pc.toNat, s.readByte (s.pc.toNat + 1)] = .ok (i, []) →
    step s = match exec i s.beginCycle with
      | .next t => .next t.endCycle
      | .fault f => .fault f
      | .refused r => .refused r

/-- What the beginning of a cycle does: `RUN <- Running` (R262), the environment's answers for the cycle are taken, and a
clock speed the host asked for between cycles is stored, 0 as 500 (R261), but not inside a suspended cycle (R289). The
environment and its counter are the model's (notes/assumptions/3.md). -/
def Obligations.CycleBeginsRunning : Prop :=
  ∀ s : State,
    s.beginCycle = { s with
      run := .running, awaitingKey := false, env := Config.environment s.cycle, cycle := s.cycle + 1,
      clockSpeed :=
        if s.awaitingKey then s.clockSpeed
        else match (Config.environment s.cycle).setClock with
          | none => s.clockSpeed
          | some hz => if hz = 0 then 500 else hz }

/-- R262, R247, R223: a completed instruction is followed by the pace phase and the tick phase; after a fatal error, or
while the instruction waits for a key, neither happens. -/
def Obligations.CycleEndsWithPaceAndTick : Prop :=
  ∀ s : State,
    (s.run = .running → s.awaitingKey = false → s.endCycle = s.pace.tickTimers) ∧
    (∀ g, s.run = .halted g → s.endCycle = s) ∧ (s.awaitingKey = true → s.endCycle = s)

/-- R66: fetch reads the big-endian word at `pc` when both bytes lie in memory; from `pc >= 0xFFF` it raises
`FetchOutOfBounds` and nothing else changes. -/
def Obligations.FetchReadsBigEndianWord : Prop :=
  ∀ s : State,
    (s.pc.toNat ≤ 0xFFE → ∃ w, s.fetch = .ok w ∧
      w.toNat = 256 * (s.readByte s.pc.toNat).toNat + (s.readByte (s.pc.toNat + 1)).toNat) ∧
    (0xFFF ≤ s.pc.toNat → s.run = .ready ∨ s.run = .running →
      step s = .next { s.beginCycle with run := .halted .fetchOutOfBounds })

/-- R246: a step before a ROM is loaded raises `MissingRom`, before any fetch, and changes nothing else (D29, D9). -/
def Obligations.StepBeforeLoadHalts : Prop :=
  ∀ s : State, s.run = .uninitialized → step s = .next { s with run := .halted .missingRom }

/-- R251: `Halted` is terminal: however many cycles are asked for, nothing changes. -/
def Obligations.HaltedIsTerminal : Prop :=
  ∀ (s : State) (g : FatalTag) (k : Nat), s.run = .halted g → Sys2Proof.core.run k s = .next s

/-- Every step answers a next state, and no instruction is refused. That a fatal error is a next state, with `RUN` halted, is
the model's form of R247 (DEDUCED, notes/assumptions/1.md); that each look at the keys of a suspended `FX0A` is a step with a
next state is the model's form of R223 and D30, by which such a step has no successor until the environment acts
(notes/assumptions/5.md). -/
def Obligations.StepAlwaysAnswersNext : Prop :=
  ∀ s : State, ∃ t, step s = .next t

/-- R263: the transitions of `RUN` that a step makes (D29); a suspended `FX0A` is a step that stays `Running`, which is the
model's form (notes/assumptions/5.md). -/
def Obligations.RunStateTransitions : Prop :=
  ∀ s t : State, step s = .next t →
    (s.run = .uninitialized → t.run = .halted .missingRom) ∧
    (∀ g, s.run = .halted g → t.run = .halted g) ∧
    (s.run = .ready ∨ s.run = .running → t.run = .running ∨ ∃ g, g ≠ .missingRom ∧ t.run = .halted g)

/-! ## Control transfer -/

/-- R123, R124: the jumps set `pc` to `nnn`, or to `V[0] + nnn`, which never wraps; nothing else changes. -/
def Obligations.JumpsSetPc : Prop :=
  ∀ (nnn : Addr) (s : State),
    encode (.jp nnn) = (0x1#4 ++ nnn : Word) ∧ encode (.jpV0 nnn) = (0xB#4 ++ nnn : Word) ∧
    exec (.jp nnn) s = .next { s with pc := BitVec.ofNat 16 nnn.toNat } ∧
    exec (.jpV0 nnn) s = .next { s with pc := BitVec.ofNat 16 (((s.getV 0).toNat + nnn.toNat) % 65536) } ∧
    (s.getV 0).toNat + nnn.toNat ≤ 0x10FE

/-- R125 to R128: a skip adds 4 to `pc` when its condition holds and 2 when it does not; nothing else changes. -/
def Obligations.SkipsCompareRegisters : Prop :=
  ∀ (x y : Nibble) (nn : Byte) (s : State),
    encode (.seImm x nn) = (0x3#4 ++ x ++ nn : Word) ∧ encode (.sneImm x nn) = (0x4#4 ++ x ++ nn : Word) ∧
    encode (.seReg x y) = (0x5#4 ++ x ++ y ++ 0x0#4 : Word) ∧ encode (.sneReg x y) = (0x9#4 ++ x ++ y ++ 0x0#4 : Word) ∧
    exec (.seImm x nn) s = .next { s with pc := if s.getV x = nn then s.pc + 4 else s.pc + 2 } ∧
    exec (.sneImm x nn) s = .next { s with pc := if s.getV x ≠ nn then s.pc + 4 else s.pc + 2 } ∧
    exec (.seReg x y) s = .next { s with pc := if s.getV x = s.getV y then s.pc + 4 else s.pc + 2 } ∧
    exec (.sneReg x y) s = .next { s with pc := if s.getV x ≠ s.getV y then s.pc + 4 else s.pc + 2 }

/-- R122: with fewer than 16 addresses held a call pushes the address of the call and goes to `nnn`; nothing else changes
(what is pushed is decision D5, the stack's representation D6). -/
def Obligations.CallPushesItsAddress : Prop :=
  ∀ (nnn : Addr) (s : State), s.sp.val < 16 →
    ∃ t, exec (.call nnn) s = .next t ∧ t = { s with pc := t.pc, stack := t.stack, sp := t.sp } ∧
      t.pc.toNat = nnn.toNat ∧ t.sp.val = s.sp.val + 1 ∧
      ∀ k : Fin 16, t.stack[k] = if k.val = s.sp.val then s.pc else s.stack[k]

/-- R121: with an address held a return decrements `SP` and goes to the newest address plus 2; the slot keeps its value and
nothing else changes (D5, D6). -/
def Obligations.ReturnPopsAndAdvances : Prop :=
  ∀ (k : Fin 16) (s : State), s.sp.val = k.val + 1 →
    ∃ t, exec .ret s = .next t ∧ t = { s with pc := s.stack[k] + 2, sp := t.sp } ∧ t.sp.val = k.val

/-- R121, R122 and the source's round trip: after a call, whatever runs in between, a return in a state with the same depth
and the same slots below it comes back to the instruction after the call, at the depth before it (D5). -/
def Obligations.CallReturnRoundTrip : Prop :=
  ∀ (nnn : Addr) (s t u : State), s.sp.val < 16 → exec (.call nnn) s = .next t →
    u.sp = t.sp → (∀ k : Fin 16, k.val < t.sp.val → u.stack[k] = t.stack[k]) →
    exec .ret u = .next { u with pc := s.pc + 2, sp := s.sp }

/-! ## Register load, arithmetic, logic, shift, random -/

/-- R151, R152: load immediate and add immediate modulo 256; VF only as the destination. -/
def Obligations.ImmediateLoadAndAdd : Prop :=
  ∀ (x : Nibble) (nn : Byte) (s : State),
    encode (.ldImm x nn) = (0x6#4 ++ x ++ nn : Word) ∧ encode (.addImm x nn) = (0x7#4 ++ x ++ nn : Word) ∧
    WritesResult (.ldImm x nn) s x nn ∧
    WritesResult (.addImm x nn) s x (BitVec.ofNat 8 (((s.getV x).toNat + nn.toNat) % 256))

/-- R153 to R156: copy, OR, AND, XOR; VF only as the destination. -/
def Obligations.CopyAndLogic : Prop :=
  ∀ (x y : Nibble) (s : State),
    encode (.ldReg x y) = (0x8#4 ++ x ++ y ++ 0x0#4 : Word) ∧ encode (.orReg x y) = (0x8#4 ++ x ++ y ++ 0x1#4 : Word) ∧
    encode (.andReg x y) = (0x8#4 ++ x ++ y ++ 0x2#4 : Word) ∧ encode (.xorReg x y) = (0x8#4 ++ x ++ y ++ 0x3#4 : Word) ∧
    WritesResult (.ldReg x y) s x (s.getV y) ∧
    WritesResult (.orReg x y) s x (s.getV x ||| s.getV y) ∧
    WritesResult (.andReg x y) s x (s.getV x &&& s.getV y) ∧
    WritesResult (.xorReg x y) s x (s.getV x ^^^ s.getV y)

/-- R157: the sum modulo 256 to `V[x]`, then the carry to VF. -/
def Obligations.AddSetsCarry : Prop :=
  ∀ (x y : Nibble) (s : State),
    encode (.addReg x y) = (0x8#4 ++ x ++ y ++ 0x4#4 : Word) ∧
    WritesResultAndFlag (.addReg x y) s x (BitVec.ofNat 8 (((s.getV x).toNat + (s.getV y).toNat) % 256))
      (if (s.getV x).toNat + (s.getV y).toNat > 255 then 1 else 0)

/-- R158, R160: the difference modulo 256 to `V[x]`, then NOT-borrow to VF, of `V[x] - V[y]` and of `V[y] - V[x]`. -/
def Obligations.SubtractSetsNotBorrow : Prop :=
  ∀ (x y : Nibble) (s : State),
    encode (.sub x y) = (0x8#4 ++ x ++ y ++ 0x5#4 : Word) ∧ encode (.subn x y) = (0x8#4 ++ x ++ y ++ 0x7#4 : Word) ∧
    WritesResultAndFlag (.sub x y) s x (BitVec.ofNat 8 (((s.getV x).toNat + 256 - (s.getV y).toNat) % 256))
      (if (s.getV x).toNat ≥ (s.getV y).toNat then 1 else 0) ∧
    WritesResultAndFlag (.subn x y) s x (BitVec.ofNat 8 (((s.getV y).toNat + 256 - (s.getV x).toNat) % 256))
      (if (s.getV y).toNat ≥ (s.getV x).toNat then 1 else 0)

/-- R159, R161: the shift of `V[x]` by one to `V[x]`, then the bit shifted out to VF, as 0 or 1; `y` has no effect. -/
def Obligations.ShiftsReportBitOut : Prop :=
  ∀ (x y : Nibble) (s : State),
    encode (.shr x y) = (0x8#4 ++ x ++ y ++ 0x6#4 : Word) ∧ encode (.shl x y) = (0x8#4 ++ x ++ y ++ 0xE#4 : Word) ∧
    WritesResultAndFlag (.shr x y) s x (BitVec.ofNat 8 ((s.getV x).toNat / 2)) (BitVec.ofNat 8 ((s.getV x).toNat % 2)) ∧
    WritesResultAndFlag (.shl x y) s x (BitVec.ofNat 8 (2 * (s.getV x).toNat % 256))
      (BitVec.ofNat 8 ((s.getV x).toNat / 128))

/-- R162: the environment's byte, whatever it is, masked with `nn`; a 0 bit of `nn` is 0 in the result (the byte stands in
the state: notes/assumptions/3.md, D28). -/
def Obligations.RandomByteIsMasked : Prop :=
  ∀ (x : Nibble) (nn : Byte) (s : State),
    encode (.rnd x nn) = (0xC#4 ++ x ++ nn : Word) ∧
    ∃ b : Byte, (∀ k < 8, b.getLsbD k = (s.env.random.getLsbD k && nn.getLsbD k)) ∧ WritesResult (.rnd x nn) s x b

/-! ## Index register and memory -/

/-- R181, R183: `I <- nnn`, and `I <- 0x050 + 5 * (V[x] & 0xF)`, at most 0x09B; nothing else changes but `pc`. -/
def Obligations.IndexLoads : Prop :=
  ∀ (x : Nibble) (nnn : Addr) (s : State),
    encode (.ldI nnn) = (0xA#4 ++ nnn : Word) ∧ encode (.ldF x) = (0xF#4 ++ x ++ 0x29#8 : Word) ∧
    exec (.ldI nnn) s = .next { s with index := BitVec.ofNat 16 nnn.toNat, pc := s.pc + 2 } ∧
    exec (.ldF x) s = .next { s with index := BitVec.ofNat 16 (0x050 + 5 * ((s.getV x).toNat % 16)), pc := s.pc + 2 } ∧
    0x050 + 5 * ((s.getV x).toNat % 16) ≤ 0x09B

/-- R182: `I + V[x]` modulo 65536 to `I`, then the 16-bit overflow to VF; every other register is unchanged. -/
def Obligations.IndexAddSetsOverflow : Prop :=
  ∀ (x : Nibble) (s : State),
    encode (.addI x) = (0xF#4 ++ x ++ 0x1E#8 : Word) ∧
    ∃ t, exec (.addI x) s = .next t ∧ t = { s with v := t.v, index := t.index, pc := s.pc + 2 } ∧
      t.index.toNat = (s.index.toNat + (s.getV x).toNat) % 65536 ∧
      ∀ r, t.getV r = if r = 15 then (if s.index.toNat + (s.getV x).toNat > 0xFFFF then 1 else 0) else s.getV r

/-- R184: the three decimal digits at `I`, `I + 1`, `I + 2` when they lie in memory, every other byte and all else but `pc`
unchanged; `MemoryOutOfBounds` with no byte written when `I > 0xFFD`. Memory is taken in its canonical form. -/
def Obligations.BcdStoresDigits : Prop :=
  ∀ (x : Nibble) (s : State), Memory.WF s.mem →
    encode (.ldB x) = (0xF#4 ++ x ++ 0x33#8 : Word) ∧
    (s.index.toNat ≤ 0xFFD → ∃ t, exec (.ldB x) s = .next t ∧ t = { s with mem := t.mem, pc := s.pc + 2 } ∧
      (t.readByte s.index.toNat).toNat = (s.getV x).toNat / 100 ∧
      (t.readByte (s.index.toNat + 1)).toNat = (s.getV x).toNat / 10 % 10 ∧
      (t.readByte (s.index.toNat + 2)).toNat = (s.getV x).toNat % 10 ∧
      ∀ a, a < s.index.toNat ∨ s.index.toNat + 2 < a → t.readByte a = s.readByte a) ∧
    (0xFFD < s.index.toNat → exec (.ldB x) s = .next { s with run := .halted .memoryOutOfBounds })

/-- R185: `V0` to `Vx` at `I` upward, inclusive, when they fit, every other byte and all else but `pc` unchanged (`I` too);
`MemoryOutOfBounds` with no byte written when they do not. Memory is taken in its canonical form. -/
def Obligations.DumpStoresRegisters : Prop :=
  ∀ (x : Nibble) (s : State), Memory.WF s.mem →
    encode (.ldMemVx x) = (0xF#4 ++ x ++ 0x55#8 : Word) ∧
    (s.index.toNat + x.toNat ≤ 0xFFF → ∃ t, exec (.ldMemVx x) s = .next t ∧ t = { s with mem := t.mem, pc := s.pc + 2 } ∧
      (∀ r : Nibble, r.toNat ≤ x.toNat → t.readByte (s.index.toNat + r.toNat) = s.getV r) ∧
      ∀ a, a < s.index.toNat ∨ s.index.toNat + x.toNat < a → t.readByte a = s.readByte a) ∧
    (0xFFF < s.index.toNat + x.toNat → exec (.ldMemVx x) s = .next { s with run := .halted .memoryOutOfBounds })

/-- R186: `V0` to `Vx` from `I` upward, inclusive, when they fit, the registers above `x` and all else but `pc` unchanged (`I`
and memory too); `MemoryOutOfBounds` with no register written when they do not. -/
def Obligations.LoadReadsRegisters : Prop :=
  ∀ (x : Nibble) (s : State),
    encode (.ldVxMem x) = (0xF#4 ++ x ++ 0x65#8 : Word) ∧
    (s.index.toNat + x.toNat ≤ 0xFFF → ∃ t, exec (.ldVxMem x) s = .next t ∧ t = { s with v := t.v, pc := s.pc + 2 } ∧
      ∀ r, t.getV r = if r.toNat ≤ x.toNat then s.readByte (s.index.toNat + r.toNat) else s.getV r) ∧
    (0xFFF < s.index.toNat + x.toNat → exec (.ldVxMem x) s = .next { s with run := .halted .memoryOutOfBounds })

/-- R186's round trip: registers dumped by `FX55` and loaded by `FX65` into a zeroed register file, from the memory the dump
left and with the same `I`, hold their values up to `x` and zero above. -/
def Obligations.DumpLoadRoundTrip : Prop :=
  ∀ (x : Nibble) (s t u : State), Memory.WF s.mem → s.index.toNat + x.toNat ≤ 0xFFF → exec (.ldMemVx x) s = .next t →
    u.mem = t.mem → u.index = t.index → (∀ r, u.getV r = 0) →
    ∃ w, exec (.ldVxMem x) u = .next w ∧ ∀ r, w.getV r = if r.toNat ≤ x.toNat then s.getV r else 0

/-- 20_memory.md R73: a store is seen by the next fetch: when the dump covers the next instruction's bytes, the word fetched
next is the one the registers spell (D18). -/
def Obligations.StoreSeenByNextFetch : Prop :=
  ∀ (x r : Nibble) (s t : State), Memory.WF s.mem → s.index.toNat + x.toNat ≤ 0xFFF → r.toNat + 1 ≤ x.toNat →
    s.pc.toNat + 2 = s.index.toNat + r.toNat → exec (.ldMemVx x) s = .next t →
    t.fetch = .ok (wordOfBytes (s.getV r) (s.getV (r + 1)))

/-! ## Framebuffer -/

/-- R201: every cell becomes 0, one `Display.clear()` is signalled, `pc` advances by 2, and nothing else changes. -/
def Obligations.ClearZeroesFramebuffer : Prop :=
  ∀ s : State, encode .cls = 0x00E0 ∧
    ∃ t, exec .cls s = .next t ∧ t = { s with fb := t.fb, events := .clear :: s.events, pc := s.pc + 2 } ∧
      ∀ k, cellAt t.fb k = false

/-- R202, R204: when the sprite lies in memory or has no rows, exactly the covered cells are toggled, VF is 1 if a covered
cell was set and 0 otherwise, one `Display.draw` with the new buffer is signalled, and nothing else changes but `pc`. That
bit 7 is the leftmost column is the spec's general knowledge (R203, D14; notes/assumptions/10.md). -/
def Obligations.DrawTogglesCoveredCells : Prop :=
  ∀ (x y n : Nibble) (s : State), n = 0 ∨ s.index.toNat + n.toNat ≤ 0x1000 →
    encode (.drw x y n) = (0xD#4 ++ x ++ y ++ n : Word) ∧
    ∃ t, exec (.drw x y n) s = .next t ∧
      t = { s with v := t.v, fb := t.fb, events := .draw t.fb :: s.events, pc := s.pc + 2 } ∧
      (∀ k < 2048, cellAt t.fb k ≠ cellAt s.fb k ↔ s.spriteCovers (s.getV x) (s.getV y) n k) ∧
      (∀ r, r ≠ 15 → t.getV r = s.getV r) ∧ (t.getV 15 = 0 ∨ t.getV 15 = 1) ∧
      (t.getV 15 = 1 ↔ ∃ k, s.spriteCovers (s.getV x) (s.getV y) n k ∧ cellAt s.fb k = true)

/-- R202, R245: a sprite with rows that does not lie in memory raises `MemoryOutOfBounds`: nothing is drawn, VF is kept and
the port is not called (D9, D19). -/
def Obligations.DrawOutsideMemoryHalts : Prop :=
  ∀ (x y n : Nibble) (s : State), 0 < n.toNat → 0xFFF < s.index.toNat + n.toNat - 1 →
    exec (.drw x y n) s = .next { s with run := .halted .memoryOutOfBounds }

/-- R205: drawing the same sprite twice at the same place restores the framebuffer; the second VF is 1 exactly when a covered
cell was clear before the first draw, the first exactly when one was set; on a clear framebuffer the second is 1 exactly when
the sprite has a set bit. -/
def Obligations.DrawTwiceRestoresFramebuffer : Prop :=
  ∀ (x y n : Nibble) (s t u w : State), n = 0 ∨ s.index.toNat + n.toNat ≤ 0x1000 →
    exec (.drw x y n) s = .next t → u.fb = t.fb → u.mem = s.mem → u.index = s.index → u.getV x = s.getV x →
    u.getV y = s.getV y → exec (.drw x y n) u = .next w →
    w.fb = s.fb ∧
    (w.getV 15 = 1 ↔ ∃ k, s.spriteCovers (s.getV x) (s.getV y) n k ∧ cellAt s.fb k = false) ∧
    (t.getV 15 = 1 ↔ ∃ k, s.spriteCovers (s.getV x) (s.getV y) n k ∧ cellAt s.fb k = true) ∧
    ((∀ k, cellAt s.fb k = false) →
      (w.getV 15 = 1 ↔ ∃ r c, r < n.toNat ∧ c < 8 ∧ (s.readByte (s.index.toNat + r)).getLsbD c = true))

/-! ## Keys and timers -/

/-- R221, R222: the key skips ask for the whole 8-bit `V[x]` and skip on the answer, and on its complement; nothing else
changes (the answer stands in the state: notes/assumptions/3.md, D13). -/
def Obligations.KeySkipsFollowAnswer : Prop :=
  ∀ (x : Nibble) (s : State),
    encode (.skp x) = (0xE#4 ++ x ++ 0x9E#8 : Word) ∧ encode (.sknp x) = (0xE#4 ++ x ++ 0xA1#8 : Word) ∧
    exec (.skp x) s = .next { s with pc := if s.getV x ∈ s.env.held then s.pc + 4 else s.pc + 2 } ∧
    exec (.sknp x) s = .next { s with pc := if s.getV x ∈ s.env.held then s.pc + 2 else s.pc + 4 }

/-- R223: with a key observed its code, 0 to 15, goes to `V[x]` and the instruction completes; without one the instruction
stays suspended and no state but the model's mark of the wait changes (D30; notes/assumptions/5.md). -/
def Obligations.KeyWaitCompletesOnPress : Prop :=
  ∀ (x : Nibble) (s : State),
    encode (.ldVxK x) = (0xF#4 ++ x ++ 0x0A#8 : Word) ∧
    (∀ k, s.env.keyPress = some k → ∃ t, exec (.ldVxK x) s = .next t ∧
      t = { s with v := t.v, pc := s.pc + 2, awaitingKey := false } ∧
      ∀ r, (t.getV r).toNat = if r = x then k.toNat else (s.getV r).toNat) ∧
    (s.env.keyPress = none → exec (.ldVxK x) s = .next { s with awaitingKey := true })

/-- R224 to R226, R253: `FX07` reads the delay count, `FX15` and `FX18` start the delay and the sound timer with `V[x]` at a
clock reading no earlier than the clock; nothing else changes but `pc` (which timer each uses is the spec's general
knowledge, D16; the clock is the model's, notes/assumptions/4.md). -/
def Obligations.TimerReadAndStart : Prop :=
  ∀ (x : Nibble) (s : State),
    encode (.ldVxDt x) = (0xF#4 ++ x ++ 0x07#8 : Word) ∧ encode (.ldDtVx x) = (0xF#4 ++ x ++ 0x15#8 : Word) ∧
    encode (.ldStVx x) = (0xF#4 ++ x ++ 0x18#8 : Word) ∧
    WritesResult (.ldVxDt x) s x s.dt.count ∧
    ∃ τ : Instant, s.now ≤ τ ∧ (s.now ≤ s.env.execTime → τ = s.env.execTime) ∧
      exec (.ldDtVx x) s = .next { s with dt := { count := s.getV x, last := τ }, now := τ, pc := s.pc + 2 } ∧
      exec (.ldStVx x) s = .next { s with st := { count := s.getV x, last := τ }, now := τ, pc := s.pc + 2 }

/-- R252: `start` sets the count and the instant; `tick` takes 1 from a nonzero count when a period has passed and records
the instant, and else does nothing; `value` is the count; and the tick phase does this to both timers at one reading. -/
def Obligations.TimerOperations : Prop :=
  (∀ (v : Byte) (t : Instant), (Timer.start v t).count = v ∧ (Timer.start v t).last = t) ∧
  (∀ T : Timer, T.value = T.count) ∧
  (∀ (T : Timer) (period : ℚ) (t : Instant),
    (T.count ≠ 0 ∧ t - T.last ≥ period →
      (T.tick period t).count.toNat = T.count.toNat - 1 ∧ (T.tick period t).last = t) ∧
    (¬(T.count ≠ 0 ∧ t - T.last ≥ period) → T.tick period t = T)) ∧
  (∀ s : State, ∃ τ, s.now ≤ τ ∧ (s.now ≤ s.env.tickTime → τ = s.env.tickTime) ∧
    s.tickTimers = { s with now := τ, dt := s.dt.tick s.params.timerPeriod τ, st := s.st.tick s.params.timerPeriod τ })

/-- R254 (d): a timer started with `v` and ticked at instants each at least a period after the one before holds
`v - n` after `n` ticks, so it reaches 0 after `v` of them and stays there, never negative. -/
def Obligations.TimerCountsDownToZero : Prop :=
  ∀ (v : Byte) (period : ℚ) (t : Nat → Instant), (∀ k, period ≤ t (k + 1) - t k) → ∀ n,
    ((List.range n).foldl (fun T k => Timer.tick T period (t (k + 1))) (Timer.start v (t 0))).count.toNat = v.toNat - n

/-- R254 (a): whatever the clock shows, a cycle's end takes at most 1 from each timer, and only from a nonzero one. -/
def Obligations.CycleTakesAtMostOneTick : Prop :=
  ∀ s : State,
    (s.endCycle.dt.count = s.dt.count ∨ s.dt.count ≠ 0 ∧ s.endCycle.dt.count.toNat = s.dt.count.toNat - 1) ∧
    (s.endCycle.st.count = s.st.count ∨ s.st.count ≠ 0 ∧ s.endCycle.st.count.toNat = s.st.count.toNat - 1)

/-- R293, R294: after the pace phase at least the interval separates `PACE_last` from its old value, `PACE_last` is the clock,
the clock has not gone back, a cycle that ran long is not delayed, and nothing else changes (exact or truncated division: D25;
milliseconds and the clock: notes/assumptions/4.md and 7.md). -/
def Obligations.PacerKeepsInterval : Prop :=
  ∀ s : State,
    let interval : ℚ :=
      if s.params.paceTruncated then ((1000000 / s.clockSpeed : Nat) : ℚ) / 1000 else 1000 / (s.clockSpeed : ℚ)
    s.paceLast + interval ≤ s.pace.paceLast ∧ s.now ≤ s.pace.now ∧
    s.pace = { s with now := s.pace.now, paceLast := s.pace.now } ∧
    (s.now ≤ s.env.paceTime → interval ≤ s.env.paceTime - s.paceLast → s.env.recordTime ≤ s.env.paceTime →
      s.pace.paceLast = s.env.paceTime)

/-! ## Fatal errors -/

/-- Which instruction raises which fatal error, completely (R243, R245, R248; the tag of R245 is decision D19): a running
core goes on running, or halts with a tag the instruction can raise, exactly under that tag's condition. -/
def Obligations.FatalErrorsOfInstructions : Prop :=
  ∀ (i : Instr) (s t : State), s.run = .running → exec i s = .next t →
    (t.run = .halted .stackOverflow ↔ (∃ nnn, i = .call nnn) ∧ s.sp.val = 16) ∧
    (t.run = .halted .stackUnderflow ↔ i = .ret ∧ s.sp.val = 0) ∧
    (t.run = .halted .memoryOutOfBounds ↔
      ((∃ x, i = .ldB x) ∧ s.index.toNat + 2 > 0xFFF) ∨
      (∃ x, (i = .ldMemVx x ∨ i = .ldVxMem x) ∧ s.index.toNat + x.toNat > 0xFFF) ∨
      (∃ x y n, i = .drw x y n ∧ n.toNat > 0 ∧ s.index.toNat + n.toNat - 1 > 0xFFF)) ∧
    (t.run = .running ∨ t.run = .halted .stackOverflow ∨ t.run = .halted .stackUnderflow ∨
      t.run = .halted .memoryOutOfBounds)

/-- R247: an instruction that raises a fatal error changes `RUN` and nothing else (D9). -/
def Obligations.FatalErrorChangesOnlyRun : Prop :=
  ∀ (i : Instr) (s t : State) (g : FatalTag), s.run = .running → exec i s = .next t → t.run = .halted g →
    t = { s with run := .halted g }

/-! ## Frames over all instructions -/

/-- The register file's frame (R22, R25, R186): an instruction changes no register but its destination, VF if it sets the
flag, and, for `FX65`, `V0` to `Vx` (D3). -/
def Obligations.RegistersFrame : Prop :=
  ∀ (i : Instr) (s t : State) (r : Nibble), exec i s = .next t →
    i.destination ≠ some r → (i.setsFlag = true → r ≠ 15) → (∀ x, i = .ldVxMem x → x.toNat < r.toNat) →
    t.getV r = s.getV r

/-- R25: each of the seven flag-setting instructions leaves VF exactly 0 or 1 when it completes. -/
def Obligations.FlagIsZeroOrOne : Prop :=
  ∀ (i : Instr) (s t : State), i.setsFlag = true → s.run = .running → exec i s = .next t → t.run = .running →
    t.getV 15 = 0 ∨ t.getV 15 = 1

/-- R27: only `ANNN`, `FX1E` and `FX29` write `I` (D3). -/
def Obligations.IndexFrame : Prop :=
  ∀ (i : Instr) (s t : State), exec i s = .next t →
    (∀ nnn, i ≠ .ldI nnn) → (∀ x, i ≠ .addI x) → (∀ x, i ≠ .ldF x) → t.index = s.index

/-- R31: only `2NNN` and `00EE` write `SP`, and only `2NNN` writes a slot, the one `SP` names. -/
def Obligations.StackFrame : Prop :=
  ∀ (i : Instr) (s t : State), exec i s = .next t →
    ((∀ nnn, i ≠ .call nnn) → i ≠ .ret → t.sp = s.sp) ∧ ((∀ nnn, i ≠ .call nnn) → t.stack = s.stack) ∧
    (∀ k : Fin 16, k.val ≠ s.sp.val → t.stack[k] = s.stack[k])

/-- 20_memory.md R69: every byte outside those an instruction stores, which lie from `I` upward, three for `FX33`, `x + 1` for
`FX55` and none for any other, reads as before. -/
def Obligations.MemoryFrame : Prop :=
  ∀ (i : Instr) (s t : State) (a : Nat), exec i s = .next t →
    a < s.baseAddress ∨ s.baseAddress + i.storedBytes ≤ a → t.readByte a = s.readByte a

/-- R33, R256: only `00E0` and `DXYN` write the framebuffer or call the Display. -/
def Obligations.FramebufferFrame : Prop :=
  ∀ (i : Instr) (s t : State), exec i s = .next t → i ≠ .cls → (∀ x y n, i ≠ .drw x y n) →
    t.fb = s.fb ∧ t.events = s.events

/-- R36, R38: no instruction writes the clock speed or `PACE_last`; only `FX15` writes the delay timer and only `FX18` the sound
timer; the model's clock is read only by these two, and its inputs, counter and parameters by none. -/
def Obligations.ControlStateFrame : Prop :=
  ∀ (i : Instr) (s t : State), exec i s = .next t →
    t.clockSpeed = s.clockSpeed ∧ t.paceLast = s.paceLast ∧ t.env = s.env ∧ t.cycle = s.cycle ∧ t.params = s.params ∧
    ((∀ x, i ≠ .ldDtVx x) → t.dt = s.dt) ∧ ((∀ x, i ≠ .ldStVx x) → t.st = s.st) ∧
    ((∀ x, i ≠ .ldDtVx x) → (∀ x, i ≠ .ldStVx x) → t.now = s.now)

/-- R39: the sound timer, the clock speed and `PACE_last` are seen by no instruction: change them before it, and the outcome
differs in them alone. -/
def Obligations.TimingStateIsInvisible : Prop :=
  ∀ (i : Instr) (s t : State) (T : Timer) (hz : Nat) (p : Instant), exec i s = .next t →
    exec i { s with st := T, clockSpeed := hz, paceLast := p } =
      .next { t with st := (match i with | .ldStVx _ => t.st | _ => T), clockSpeed := hz, paceLast := p }

/-- R32: the slots at or above `SP` are dead: two states that differ in them alone give outcomes that differ in dead slots
alone (D6). -/
def Obligations.DeadSlotsAreNeverRead : Prop :=
  ∀ (i : Instr) (s t : State) (slots : Vector Word 16), exec i s = .next t →
    (∀ k : Fin 16, k.val < s.sp.val → slots[k] = s.stack[k]) →
    ∃ u, exec i { s with stack := slots } = .next u ∧ u = { t with stack := u.stack } ∧
      ∀ k : Fin 16, k.val < t.sp.val → u.stack[k] = t.stack[k]

/-! ## Reset, load and the invariant -/

/-- R280, R42, R43: the state after creation and the font copy (the zeros the source does not state are decision D7; the font
bytes are the spec's general knowledge, D15; DT_last, ST_last and PACE_last are the model's, notes/assumptions/9.md, and are
not stated here). R21 makes the parameters no state: that they stand in it, at the defaults `ROM_MAX` 3584 (D8) and
`TIMER_PERIOD` 50/3 (D17), is the model's choice (DESIGN CHOICE, notes/assumptions/7.md). -/
def Obligations.ResetState : Prop :=
  (∀ r, State.reset.getV r = 0) ∧ State.reset.index = 0 ∧ State.reset.pc = 0 ∧ State.reset.sp = 0 ∧
  (∀ k : Fin 16, State.reset.stack[k] = 0) ∧ (∀ k, cellAt State.reset.fb k = false) ∧
  State.reset.dt.count = 0 ∧ State.reset.st.count = 0 ∧ State.reset.clockSpeed = 500 ∧
  State.reset.run = .uninitialized ∧ State.reset.params.romMax = 3584 ∧ State.reset.params.timerPeriod = 50 / 3 ∧
  (∀ a, a < 0x050 ∨ 0x09F < a → State.reset.readByte a = 0) ∧
  (List.range 5).map (fun k => State.reset.readByte (0x050 + k)) = [0xF0, 0x90, 0x90, 0x90, 0xF0] ∧
  (List.range 5).map (fun k => State.reset.readByte (0x09B + k)) = [0xF0, 0x80, 0xF0, 0x80, 0x80] ∧
  State.initial defaultFont Config.params 0 = State.reset

/-- R41: after creation with any font of 80 bytes and the load of any image that fits, registers and framebuffer are zero, the
font lies at 0x050, the image at 0x200, every other byte is 0, `pc` is 0x200 and `RUN` is `Ready`. -/
def Obligations.LoadedStateIsReady : Prop :=
  ∀ (font rom : List Byte) (params : Params) (hz : Nat) (reading : Instant), font.length = 80 → rom ≠ [] →
    rom.length ≤ params.romMax →
    ∃ t, (State.initial font params hz).load rom reading = .ok t ∧ (∀ r, t.getV r = 0) ∧ (∀ k, cellAt t.fb k = false) ∧
      (∀ k (h : k < font.length), t.readByte (0x050 + k) = font[k]) ∧
      (∀ k (h : k < rom.length), t.readByte (0x200 + k) = rom[k]) ∧
      (∀ a, (a < 0x050 ∨ 0x09F < a) → (a < 0x200 ∨ 0x200 + rom.length ≤ a) → t.readByte a = 0) ∧
      t.pc = 0x200 ∧ t.run = .ready

/-- R283, R284: a load is accepted exactly in `Uninitialized` for a length from 1 to `ROM_MAX`, itself from 1 to 3584 (D8); it
then writes the image at 0x200, `pc`, `PACE_last <- Now()` and `RUN`, and nothing else but the model's clock, which takes the
reading unless that would go back (R260; notes/assumptions/4.md). The stored bytes are read from a memory in canonical form
(notes/assumptions/2.md). That a load outside `Uninitialized` is a load error is the model's choice (DESIGN CHOICE,
notes/assumptions/13.md). -/
def Obligations.LoadAcceptsImagesThatFit : Prop :=
  ∀ (s : State) (rom : List Byte) (reading : Instant),
    (1 ≤ s.params.romMax ∧ s.params.romMax ≤ 3584) ∧
    ((∃ t, s.load rom reading = .ok t) ↔
      s.run = .uninitialized ∧ 1 ≤ rom.length ∧ rom.length ≤ s.params.romMax) ∧
    (∀ t, s.load rom reading = .ok t →
      t = { s with mem := t.mem, pc := 0x200, paceLast := t.now, now := t.now, run := .ready } ∧
      s.now ≤ t.now ∧ (s.now ≤ reading → t.now = reading) ∧
      (Memory.WF s.mem → ∀ k (h : k < rom.length), t.readByte (0x200 + k) = rom[k]) ∧
      ∀ a, a < 0x200 ∨ 0x200 + rom.length ≤ a → t.readByte a = s.readByte a)

/-- R261, R289: between cycles the configuration port stores the rate, 0 as 500, and changes nothing else (D27); inside a cycle
suspended in `FX0A` it takes no setting, which a host must not make (the mark of such a cycle is the model's,
notes/assumptions/5.md). -/
def Obligations.ClockSettingNormalizesZero : Prop :=
  ∀ (s : State) (hz : Nat),
    (s.awaitingKey = false → s.setClockSpeed hz = some { s with clockSpeed := if hz = 0 then 500 else hz }) ∧
    (s.awaitingKey = true → s.setClockSpeed hz = none)

/-- The invariant holds at reset, and after creation with any font, parameters and clock speed (R40, R43). -/
def Obligations.ResetHasInvariant : Prop :=
  State.reset.Inv ∧ ∀ (font : List Byte) (params : Params) (hz : Nat), (State.initial font params hz).Inv

/-- Every step keeps the invariant: canonical memory, a positive clock speed, `pc` at most 0x10FE and live return addresses at
most 0xFFE, so that no `pc` sum wraps, and no instant after the clock (R29, R35, R36, R40, R260). -/
def Obligations.StepKeepsInvariant : Prop :=
  ∀ s t : State, s.Inv → step s = .next t → t.Inv

/-- The invariant holds in every state the host can bring the machine to: by creation, loading, configuring between cycles
and stepping, in any order (R40, R289). -/
def Obligations.ReachableStatesHaveInvariant : Prop :=
  ∀ s : State, Reachable s → s.Inv
end

