-- ==== Sys2Proof/Laws/Decode.lean ====
section
/-! SUPPORT. The fields of each format's word are the operands it was built from, and a word is its fields put together
(30_encoding.md R92, R93). -/

namespace Sys2Proof

@[simp] theorem fieldOp_formatA (op : Nibble) (nnn : Addr) : fieldOp (formatA op nnn) = op := by
  simp only [fieldOp, formatA]; ext k hk; simp; grind

@[simp] theorem fieldNNN_formatA (op : Nibble) (nnn : Addr) : fieldNNN (formatA op nnn) = nnn := by
  simp only [fieldNNN, formatA]; ext k hk; simp; grind

@[simp] theorem fieldOp_formatXI (op x : Nibble) (nn : Byte) : fieldOp (formatXI op x nn) = op := by
  simp only [fieldOp, formatXI]; ext k hk; simp; grind

@[simp] theorem fieldX_formatXI (op x : Nibble) (nn : Byte) : fieldX (formatXI op x nn) = x := by
  simp only [fieldX, formatXI]; ext k hk; simp; grind

@[simp] theorem fieldNN_formatXI (op x : Nibble) (nn : Byte) : fieldNN (formatXI op x nn) = nn := by
  simp only [fieldNN, formatXI]; ext k hk; simp; grind

@[simp] theorem fieldOp_formatXY (op x y n : Nibble) : fieldOp (formatXY op x y n) = op := by
  simp only [fieldOp, formatXY]; ext k hk; simp; grind

@[simp] theorem fieldX_formatXY (op x y n : Nibble) : fieldX (formatXY op x y n) = x := by
  simp only [fieldX, formatXY]; ext k hk; simp; grind

@[simp] theorem fieldY_formatXY (op x y n : Nibble) : fieldY (formatXY op x y n) = y := by
  simp only [fieldY, formatXY]; ext k hk; simp; grind

@[simp] theorem fieldN_formatXY (op x y n : Nibble) : fieldN (formatXY op x y n) = n := by
  simp only [fieldN, formatXY]; ext k hk; simp; grind

theorem getLsbD_formatA (op : Nibble) (nnn : Addr) (k : Nat) :
    (formatA op nnn).getLsbD k = if k < 12 then nnn.getLsbD k else op.getLsbD (k - 12) := by
  show (op ++ nnn : BitVec (4 + 12)).getLsbD k = _
  rw [BitVec.getLsbD_append]

theorem getLsbD_formatXI (op x : Nibble) (nn : Byte) (k : Nat) :
    (formatXI op x nn).getLsbD k =
      if k < 8 then nn.getLsbD k else if k < 12 then x.getLsbD (k - 8) else op.getLsbD (k - 12) := by
  simp only [formatXI, BitVec.getLsbD_append]
  grind

theorem getLsbD_formatXY (op x y n : Nibble) (k : Nat) :
    (formatXY op x y n).getLsbD k =
      if k < 4 then n.getLsbD k else if k < 8 then y.getLsbD (k - 4)
      else if k < 12 then x.getLsbD (k - 8) else op.getLsbD (k - 12) := by
  simp only [formatXY, BitVec.getLsbD_append]
  grind

/-- A word is its high nibble and its address field. -/
theorem formatA_fields (w : Word) : formatA (fieldOp w) (fieldNNN w) = w := by
  refine BitVec.eq_of_getLsbD_eq fun k hk => ?_
  rw [getLsbD_formatA]
  simp only [fieldOp, fieldNNN, BitVec.getLsbD_extractLsb']
  grind

/-- A word is its high nibble, `x` and `nn`. -/
theorem formatXI_fields (w : Word) : formatXI (fieldOp w) (fieldX w) (fieldNN w) = w := by
  refine BitVec.eq_of_getLsbD_eq fun k hk => ?_
  rw [getLsbD_formatXI]
  simp only [fieldOp, fieldX, fieldNN, BitVec.getLsbD_extractLsb']
  grind

/-- A word is its four nibbles. -/
theorem formatXY_fields (w : Word) : formatXY (fieldOp w) (fieldX w) (fieldY w) (fieldN w) = w := by
  refine BitVec.eq_of_getLsbD_eq fun k hk => ?_
  rw [getLsbD_formatXY]
  simp only [fieldOp, fieldX, fieldY, fieldN, BitVec.getLsbD_extractLsb']
  grind

/-- The two bytes of a word put together are the word (R91). -/
theorem wordOfBytes_bytes (w : Word) : wordOfBytes (w.extractLsb' 8 8) (w.extractLsb' 0 8) = w := by
  refine BitVec.eq_of_getLsbD_eq fun k hk => ?_
  simp only [wordOfBytes, BitVec.getLsbD_append, BitVec.getLsbD_extractLsb']
  grind

/-- The fixed bits of a format A word. -/
theorem formatA_and_F000 (op : Nibble) (nnn : Addr) : formatA op nnn &&& 0xF000 = formatA op 0 := by
  refine BitVec.eq_of_getLsbD_eq fun k hk => ?_
  rw [BitVec.getLsbD_and, getLsbD_formatA, getLsbD_formatA]
  interval_cases k <;> simp

/-- The fixed bits of a format XI word. -/
theorem formatXI_and_F000 (op x : Nibble) (nn : Byte) : formatXI op x nn &&& 0xF000 = formatXI op 0 0 := by
  refine BitVec.eq_of_getLsbD_eq fun k hk => ?_
  rw [BitVec.getLsbD_and, getLsbD_formatXI, getLsbD_formatXI]
  interval_cases k <;> simp

/-- The fixed bits of a format X word: an XI word whose byte is the sub-key. -/
theorem formatXI_and_F0FF (op x : Nibble) (nn : Byte) : formatXI op x nn &&& 0xF0FF = formatXI op 0 nn := by
  refine BitVec.eq_of_getLsbD_eq fun k hk => ?_
  rw [BitVec.getLsbD_and, getLsbD_formatXI, getLsbD_formatXI]
  interval_cases k <;> simp

/-- The fixed bits of a format XY word. -/
theorem formatXY_and_F00F (op x y n : Nibble) : formatXY op x y n &&& 0xF00F = formatXY op 0 0 n := by
  refine BitVec.eq_of_getLsbD_eq fun k hk => ?_
  rw [BitVec.getLsbD_and, getLsbD_formatXY, getLsbD_formatXY]
  interval_cases k <;> simp

/-- The fixed bits of a format XYN word. -/
theorem formatXY_and_F000 (op x y n : Nibble) : formatXY op x y n &&& 0xF000 = formatXY op 0 0 0 := by
  refine BitVec.eq_of_getLsbD_eq fun k hk => ?_
  rw [BitVec.getLsbD_and, getLsbD_formatXY, getLsbD_formatXY]
  interval_cases k <;> simp

end Sys2Proof
end

