-- ==== Sys2Proof/Laws/State.lean ====
section
/-! SUPPORT. One lemma per field per update of the state, each true by rfl. -/

namespace Sys2Proof.Machine

theorem State.setV_v (s : State) (x : Nibble) (b : Byte) : (s.setV x b).v = s.v.set x.toNat b x.isLt := rfl
@[simp] theorem State.setV_index (s : State) (x : Nibble) (b : Byte) : (s.setV x b).index = s.index := rfl
@[simp] theorem State.setV_pc (s : State) (x : Nibble) (b : Byte) : (s.setV x b).pc = s.pc := rfl
@[simp] theorem State.setV_stack (s : State) (x : Nibble) (b : Byte) : (s.setV x b).stack = s.stack := rfl
@[simp] theorem State.setV_sp (s : State) (x : Nibble) (b : Byte) : (s.setV x b).sp = s.sp := rfl
@[simp] theorem State.setV_mem (s : State) (x : Nibble) (b : Byte) : (s.setV x b).mem = s.mem := rfl
@[simp] theorem State.setV_fb (s : State) (x : Nibble) (b : Byte) : (s.setV x b).fb = s.fb := rfl
@[simp] theorem State.setV_dt (s : State) (x : Nibble) (b : Byte) : (s.setV x b).dt = s.dt := rfl
@[simp] theorem State.setV_st (s : State) (x : Nibble) (b : Byte) : (s.setV x b).st = s.st := rfl
@[simp] theorem State.setV_clockSpeed (s : State) (x : Nibble) (b : Byte) : (s.setV x b).clockSpeed = s.clockSpeed :=
  rfl
@[simp] theorem State.setV_paceLast (s : State) (x : Nibble) (b : Byte) : (s.setV x b).paceLast = s.paceLast := rfl
@[simp] theorem State.setV_run (s : State) (x : Nibble) (b : Byte) : (s.setV x b).run = s.run := rfl
@[simp] theorem State.setV_awaitingKey (s : State) (x : Nibble) (b : Byte) : (s.setV x b).awaitingKey = s.awaitingKey :=
  rfl
@[simp] theorem State.setV_events (s : State) (x : Nibble) (b : Byte) : (s.setV x b).events = s.events := rfl
@[simp] theorem State.setV_now (s : State) (x : Nibble) (b : Byte) : (s.setV x b).now = s.now := rfl
@[simp] theorem State.setV_env (s : State) (x : Nibble) (b : Byte) : (s.setV x b).env = s.env := rfl
@[simp] theorem State.setV_cycle (s : State) (x : Nibble) (b : Byte) : (s.setV x b).cycle = s.cycle := rfl
@[simp] theorem State.setV_params (s : State) (x : Nibble) (b : Byte) : (s.setV x b).params = s.params := rfl

@[simp] theorem State.setIndex_v (s : State) (a : Word) : (s.setIndex a).v = s.v := rfl
@[simp] theorem State.setIndex_index (s : State) (a : Word) : (s.setIndex a).index = a := rfl
@[simp] theorem State.setIndex_pc (s : State) (a : Word) : (s.setIndex a).pc = s.pc := rfl
@[simp] theorem State.setIndex_stack (s : State) (a : Word) : (s.setIndex a).stack = s.stack := rfl
@[simp] theorem State.setIndex_sp (s : State) (a : Word) : (s.setIndex a).sp = s.sp := rfl
@[simp] theorem State.setIndex_mem (s : State) (a : Word) : (s.setIndex a).mem = s.mem := rfl
@[simp] theorem State.setIndex_fb (s : State) (a : Word) : (s.setIndex a).fb = s.fb := rfl
@[simp] theorem State.setIndex_dt (s : State) (a : Word) : (s.setIndex a).dt = s.dt := rfl
@[simp] theorem State.setIndex_st (s : State) (a : Word) : (s.setIndex a).st = s.st := rfl
@[simp] theorem State.setIndex_clockSpeed (s : State) (a : Word) : (s.setIndex a).clockSpeed = s.clockSpeed := rfl
@[simp] theorem State.setIndex_paceLast (s : State) (a : Word) : (s.setIndex a).paceLast = s.paceLast := rfl
@[simp] theorem State.setIndex_run (s : State) (a : Word) : (s.setIndex a).run = s.run := rfl
@[simp] theorem State.setIndex_awaitingKey (s : State) (a : Word) : (s.setIndex a).awaitingKey = s.awaitingKey := rfl
@[simp] theorem State.setIndex_events (s : State) (a : Word) : (s.setIndex a).events = s.events := rfl
@[simp] theorem State.setIndex_now (s : State) (a : Word) : (s.setIndex a).now = s.now := rfl
@[simp] theorem State.setIndex_env (s : State) (a : Word) : (s.setIndex a).env = s.env := rfl
@[simp] theorem State.setIndex_cycle (s : State) (a : Word) : (s.setIndex a).cycle = s.cycle := rfl
@[simp] theorem State.setIndex_params (s : State) (a : Word) : (s.setIndex a).params = s.params := rfl

@[simp] theorem State.jump_v (s : State) (a : Word) : (s.jump a).v = s.v := rfl
@[simp] theorem State.jump_index (s : State) (a : Word) : (s.jump a).index = s.index := rfl
@[simp] theorem State.jump_pc (s : State) (a : Word) : (s.jump a).pc = a := rfl
@[simp] theorem State.jump_stack (s : State) (a : Word) : (s.jump a).stack = s.stack := rfl
@[simp] theorem State.jump_sp (s : State) (a : Word) : (s.jump a).sp = s.sp := rfl
@[simp] theorem State.jump_mem (s : State) (a : Word) : (s.jump a).mem = s.mem := rfl
@[simp] theorem State.jump_fb (s : State) (a : Word) : (s.jump a).fb = s.fb := rfl
@[simp] theorem State.jump_dt (s : State) (a : Word) : (s.jump a).dt = s.dt := rfl
@[simp] theorem State.jump_st (s : State) (a : Word) : (s.jump a).st = s.st := rfl
@[simp] theorem State.jump_clockSpeed (s : State) (a : Word) : (s.jump a).clockSpeed = s.clockSpeed := rfl
@[simp] theorem State.jump_paceLast (s : State) (a : Word) : (s.jump a).paceLast = s.paceLast := rfl
@[simp] theorem State.jump_run (s : State) (a : Word) : (s.jump a).run = s.run := rfl
@[simp] theorem State.jump_awaitingKey (s : State) (a : Word) : (s.jump a).awaitingKey = s.awaitingKey := rfl
@[simp] theorem State.jump_events (s : State) (a : Word) : (s.jump a).events = s.events := rfl
@[simp] theorem State.jump_now (s : State) (a : Word) : (s.jump a).now = s.now := rfl
@[simp] theorem State.jump_env (s : State) (a : Word) : (s.jump a).env = s.env := rfl
@[simp] theorem State.jump_cycle (s : State) (a : Word) : (s.jump a).cycle = s.cycle := rfl
@[simp] theorem State.jump_params (s : State) (a : Word) : (s.jump a).params = s.params := rfl

@[simp] theorem State.advance_v (s : State) : (s.advance).v = s.v := rfl
@[simp] theorem State.advance_index (s : State) : (s.advance).index = s.index := rfl
@[simp] theorem State.advance_pc (s : State) : (s.advance).pc = s.pc + 2 := rfl
@[simp] theorem State.advance_stack (s : State) : (s.advance).stack = s.stack := rfl
@[simp] theorem State.advance_sp (s : State) : (s.advance).sp = s.sp := rfl
@[simp] theorem State.advance_mem (s : State) : (s.advance).mem = s.mem := rfl
@[simp] theorem State.advance_fb (s : State) : (s.advance).fb = s.fb := rfl
@[simp] theorem State.advance_dt (s : State) : (s.advance).dt = s.dt := rfl
@[simp] theorem State.advance_st (s : State) : (s.advance).st = s.st := rfl
@[simp] theorem State.advance_clockSpeed (s : State) : (s.advance).clockSpeed = s.clockSpeed := rfl
@[simp] theorem State.advance_paceLast (s : State) : (s.advance).paceLast = s.paceLast := rfl
@[simp] theorem State.advance_run (s : State) : (s.advance).run = s.run := rfl
@[simp] theorem State.advance_awaitingKey (s : State) : (s.advance).awaitingKey = s.awaitingKey := rfl
@[simp] theorem State.advance_events (s : State) : (s.advance).events = s.events := rfl
@[simp] theorem State.advance_now (s : State) : (s.advance).now = s.now := rfl
@[simp] theorem State.advance_env (s : State) : (s.advance).env = s.env := rfl
@[simp] theorem State.advance_cycle (s : State) : (s.advance).cycle = s.cycle := rfl
@[simp] theorem State.advance_params (s : State) : (s.advance).params = s.params := rfl

@[simp] theorem State.skipIf_v (s : State) (c : Bool) : (s.skipIf c).v = s.v := rfl
@[simp] theorem State.skipIf_index (s : State) (c : Bool) : (s.skipIf c).index = s.index := rfl
@[simp] theorem State.skipIf_pc (s : State) (c : Bool) : (s.skipIf c).pc = s.pc + if c then 4 else 2 := rfl
@[simp] theorem State.skipIf_stack (s : State) (c : Bool) : (s.skipIf c).stack = s.stack := rfl
@[simp] theorem State.skipIf_sp (s : State) (c : Bool) : (s.skipIf c).sp = s.sp := rfl
@[simp] theorem State.skipIf_mem (s : State) (c : Bool) : (s.skipIf c).mem = s.mem := rfl
@[simp] theorem State.skipIf_fb (s : State) (c : Bool) : (s.skipIf c).fb = s.fb := rfl
@[simp] theorem State.skipIf_dt (s : State) (c : Bool) : (s.skipIf c).dt = s.dt := rfl
@[simp] theorem State.skipIf_st (s : State) (c : Bool) : (s.skipIf c).st = s.st := rfl
@[simp] theorem State.skipIf_clockSpeed (s : State) (c : Bool) : (s.skipIf c).clockSpeed = s.clockSpeed := rfl
@[simp] theorem State.skipIf_paceLast (s : State) (c : Bool) : (s.skipIf c).paceLast = s.paceLast := rfl
@[simp] theorem State.skipIf_run (s : State) (c : Bool) : (s.skipIf c).run = s.run := rfl
@[simp] theorem State.skipIf_awaitingKey (s : State) (c : Bool) : (s.skipIf c).awaitingKey = s.awaitingKey := rfl
@[simp] theorem State.skipIf_events (s : State) (c : Bool) : (s.skipIf c).events = s.events := rfl
@[simp] theorem State.skipIf_now (s : State) (c : Bool) : (s.skipIf c).now = s.now := rfl
@[simp] theorem State.skipIf_env (s : State) (c : Bool) : (s.skipIf c).env = s.env := rfl
@[simp] theorem State.skipIf_cycle (s : State) (c : Bool) : (s.skipIf c).cycle = s.cycle := rfl
@[simp] theorem State.skipIf_params (s : State) (c : Bool) : (s.skipIf c).params = s.params := rfl

@[simp] theorem State.raiseFatal_v (s : State) (tag : FatalTag) : (s.raiseFatal tag).v = s.v := rfl
@[simp] theorem State.raiseFatal_index (s : State) (tag : FatalTag) : (s.raiseFatal tag).index = s.index := rfl
@[simp] theorem State.raiseFatal_pc (s : State) (tag : FatalTag) : (s.raiseFatal tag).pc = s.pc := rfl
@[simp] theorem State.raiseFatal_stack (s : State) (tag : FatalTag) : (s.raiseFatal tag).stack = s.stack := rfl
@[simp] theorem State.raiseFatal_sp (s : State) (tag : FatalTag) : (s.raiseFatal tag).sp = s.sp := rfl
@[simp] theorem State.raiseFatal_mem (s : State) (tag : FatalTag) : (s.raiseFatal tag).mem = s.mem := rfl
@[simp] theorem State.raiseFatal_fb (s : State) (tag : FatalTag) : (s.raiseFatal tag).fb = s.fb := rfl
@[simp] theorem State.raiseFatal_dt (s : State) (tag : FatalTag) : (s.raiseFatal tag).dt = s.dt := rfl
@[simp] theorem State.raiseFatal_st (s : State) (tag : FatalTag) : (s.raiseFatal tag).st = s.st := rfl
@[simp] theorem State.raiseFatal_clockSpeed (s : State) (tag : FatalTag) :
    (s.raiseFatal tag).clockSpeed = s.clockSpeed := rfl
@[simp] theorem State.raiseFatal_paceLast (s : State) (tag : FatalTag) : (s.raiseFatal tag).paceLast = s.paceLast :=
  rfl
@[simp] theorem State.raiseFatal_run (s : State) (tag : FatalTag) : (s.raiseFatal tag).run = .halted tag := rfl
@[simp] theorem State.raiseFatal_awaitingKey (s : State) (tag : FatalTag) :
    (s.raiseFatal tag).awaitingKey = s.awaitingKey := rfl
@[simp] theorem State.raiseFatal_events (s : State) (tag : FatalTag) : (s.raiseFatal tag).events = s.events := rfl
@[simp] theorem State.raiseFatal_now (s : State) (tag : FatalTag) : (s.raiseFatal tag).now = s.now := rfl
@[simp] theorem State.raiseFatal_env (s : State) (tag : FatalTag) : (s.raiseFatal tag).env = s.env := rfl
@[simp] theorem State.raiseFatal_cycle (s : State) (tag : FatalTag) : (s.raiseFatal tag).cycle = s.cycle := rfl
@[simp] theorem State.raiseFatal_params (s : State) (tag : FatalTag) : (s.raiseFatal tag).params = s.params := rfl

@[simp] theorem State.writeByte_v (s : State) (a : Nat) (b : Byte) : (s.writeByte a b).v = s.v := rfl
@[simp] theorem State.writeByte_index (s : State) (a : Nat) (b : Byte) : (s.writeByte a b).index = s.index := rfl
@[simp] theorem State.writeByte_pc (s : State) (a : Nat) (b : Byte) : (s.writeByte a b).pc = s.pc := rfl
@[simp] theorem State.writeByte_stack (s : State) (a : Nat) (b : Byte) : (s.writeByte a b).stack = s.stack := rfl
@[simp] theorem State.writeByte_sp (s : State) (a : Nat) (b : Byte) : (s.writeByte a b).sp = s.sp := rfl
@[simp] theorem State.writeByte_mem (s : State) (a : Nat) (b : Byte) : (s.writeByte a b).mem = Memory.write s.mem a b :=
  rfl
@[simp] theorem State.writeByte_fb (s : State) (a : Nat) (b : Byte) : (s.writeByte a b).fb = s.fb := rfl
@[simp] theorem State.writeByte_dt (s : State) (a : Nat) (b : Byte) : (s.writeByte a b).dt = s.dt := rfl
@[simp] theorem State.writeByte_st (s : State) (a : Nat) (b : Byte) : (s.writeByte a b).st = s.st := rfl
@[simp] theorem State.writeByte_clockSpeed (s : State) (a : Nat) (b : Byte) :
    (s.writeByte a b).clockSpeed = s.clockSpeed := rfl
@[simp] theorem State.writeByte_paceLast (s : State) (a : Nat) (b : Byte) : (s.writeByte a b).paceLast = s.paceLast :=
  rfl
@[simp] theorem State.writeByte_run (s : State) (a : Nat) (b : Byte) : (s.writeByte a b).run = s.run := rfl
@[simp] theorem State.writeByte_awaitingKey (s : State) (a : Nat) (b : Byte) :
    (s.writeByte a b).awaitingKey = s.awaitingKey := rfl
@[simp] theorem State.writeByte_events (s : State) (a : Nat) (b : Byte) : (s.writeByte a b).events = s.events := rfl
@[simp] theorem State.writeByte_now (s : State) (a : Nat) (b : Byte) : (s.writeByte a b).now = s.now := rfl
@[simp] theorem State.writeByte_env (s : State) (a : Nat) (b : Byte) : (s.writeByte a b).env = s.env := rfl
@[simp] theorem State.writeByte_cycle (s : State) (a : Nat) (b : Byte) : (s.writeByte a b).cycle = s.cycle := rfl
@[simp] theorem State.writeByte_params (s : State) (a : Nat) (b : Byte) : (s.writeByte a b).params = s.params := rfl

@[simp] theorem State.signal_v (s : State) (e : DisplayEvent) : (s.signal e).v = s.v := rfl
@[simp] theorem State.signal_index (s : State) (e : DisplayEvent) : (s.signal e).index = s.index := rfl
@[simp] theorem State.signal_pc (s : State) (e : DisplayEvent) : (s.signal e).pc = s.pc := rfl
@[simp] theorem State.signal_stack (s : State) (e : DisplayEvent) : (s.signal e).stack = s.stack := rfl
@[simp] theorem State.signal_sp (s : State) (e : DisplayEvent) : (s.signal e).sp = s.sp := rfl
@[simp] theorem State.signal_mem (s : State) (e : DisplayEvent) : (s.signal e).mem = s.mem := rfl
@[simp] theorem State.signal_fb (s : State) (e : DisplayEvent) : (s.signal e).fb = s.fb := rfl
@[simp] theorem State.signal_dt (s : State) (e : DisplayEvent) : (s.signal e).dt = s.dt := rfl
@[simp] theorem State.signal_st (s : State) (e : DisplayEvent) : (s.signal e).st = s.st := rfl
@[simp] theorem State.signal_clockSpeed (s : State) (e : DisplayEvent) : (s.signal e).clockSpeed = s.clockSpeed := rfl
@[simp] theorem State.signal_paceLast (s : State) (e : DisplayEvent) : (s.signal e).paceLast = s.paceLast := rfl
@[simp] theorem State.signal_run (s : State) (e : DisplayEvent) : (s.signal e).run = s.run := rfl
@[simp] theorem State.signal_awaitingKey (s : State) (e : DisplayEvent) : (s.signal e).awaitingKey = s.awaitingKey :=
  rfl
@[simp] theorem State.signal_events (s : State) (e : DisplayEvent) : (s.signal e).events = e :: s.events := rfl
@[simp] theorem State.signal_now (s : State) (e : DisplayEvent) : (s.signal e).now = s.now := rfl
@[simp] theorem State.signal_env (s : State) (e : DisplayEvent) : (s.signal e).env = s.env := rfl
@[simp] theorem State.signal_cycle (s : State) (e : DisplayEvent) : (s.signal e).cycle = s.cycle := rfl
@[simp] theorem State.signal_params (s : State) (e : DisplayEvent) : (s.signal e).params = s.params := rfl

@[simp] theorem State.readClock_v (s : State) (r : Instant) : (s.readClock r).v = s.v := rfl
@[simp] theorem State.readClock_index (s : State) (r : Instant) : (s.readClock r).index = s.index := rfl
@[simp] theorem State.readClock_pc (s : State) (r : Instant) : (s.readClock r).pc = s.pc := rfl
@[simp] theorem State.readClock_stack (s : State) (r : Instant) : (s.readClock r).stack = s.stack := rfl
@[simp] theorem State.readClock_sp (s : State) (r : Instant) : (s.readClock r).sp = s.sp := rfl
@[simp] theorem State.readClock_mem (s : State) (r : Instant) : (s.readClock r).mem = s.mem := rfl
@[simp] theorem State.readClock_fb (s : State) (r : Instant) : (s.readClock r).fb = s.fb := rfl
@[simp] theorem State.readClock_dt (s : State) (r : Instant) : (s.readClock r).dt = s.dt := rfl
@[simp] theorem State.readClock_st (s : State) (r : Instant) : (s.readClock r).st = s.st := rfl
@[simp] theorem State.readClock_clockSpeed (s : State) (r : Instant) : (s.readClock r).clockSpeed = s.clockSpeed :=
  rfl
@[simp] theorem State.readClock_paceLast (s : State) (r : Instant) : (s.readClock r).paceLast = s.paceLast := rfl
@[simp] theorem State.readClock_run (s : State) (r : Instant) : (s.readClock r).run = s.run := rfl
@[simp] theorem State.readClock_awaitingKey (s : State) (r : Instant) : (s.readClock r).awaitingKey = s.awaitingKey :=
  rfl
@[simp] theorem State.readClock_events (s : State) (r : Instant) : (s.readClock r).events = s.events := rfl
@[simp] theorem State.readClock_now (s : State) (r : Instant) : (s.readClock r).now = laterOf s.now r := rfl
@[simp] theorem State.readClock_env (s : State) (r : Instant) : (s.readClock r).env = s.env := rfl
@[simp] theorem State.readClock_cycle (s : State) (r : Instant) : (s.readClock r).cycle = s.cycle := rfl
@[simp] theorem State.readClock_params (s : State) (r : Instant) : (s.readClock r).params = s.params := rfl

theorem State.setFlag_v (s : State) (b : Byte) : (s.setFlag b).v = s.v.set 15 b := rfl
@[simp] theorem State.setFlag_index (s : State) (b : Byte) : (s.setFlag b).index = s.index := rfl
@[simp] theorem State.setFlag_pc (s : State) (b : Byte) : (s.setFlag b).pc = s.pc := rfl
@[simp] theorem State.setFlag_stack (s : State) (b : Byte) : (s.setFlag b).stack = s.stack := rfl
@[simp] theorem State.setFlag_sp (s : State) (b : Byte) : (s.setFlag b).sp = s.sp := rfl
@[simp] theorem State.setFlag_mem (s : State) (b : Byte) : (s.setFlag b).mem = s.mem := rfl
@[simp] theorem State.setFlag_fb (s : State) (b : Byte) : (s.setFlag b).fb = s.fb := rfl
@[simp] theorem State.setFlag_dt (s : State) (b : Byte) : (s.setFlag b).dt = s.dt := rfl
@[simp] theorem State.setFlag_st (s : State) (b : Byte) : (s.setFlag b).st = s.st := rfl
@[simp] theorem State.setFlag_clockSpeed (s : State) (b : Byte) : (s.setFlag b).clockSpeed = s.clockSpeed := rfl
@[simp] theorem State.setFlag_paceLast (s : State) (b : Byte) : (s.setFlag b).paceLast = s.paceLast := rfl
@[simp] theorem State.setFlag_run (s : State) (b : Byte) : (s.setFlag b).run = s.run := rfl
@[simp] theorem State.setFlag_awaitingKey (s : State) (b : Byte) : (s.setFlag b).awaitingKey = s.awaitingKey := rfl
@[simp] theorem State.setFlag_events (s : State) (b : Byte) : (s.setFlag b).events = s.events := rfl
@[simp] theorem State.setFlag_now (s : State) (b : Byte) : (s.setFlag b).now = s.now := rfl
@[simp] theorem State.setFlag_env (s : State) (b : Byte) : (s.setFlag b).env = s.env := rfl
@[simp] theorem State.setFlag_cycle (s : State) (b : Byte) : (s.setFlag b).cycle = s.cycle := rfl
@[simp] theorem State.setFlag_params (s : State) (b : Byte) : (s.setFlag b).params = s.params := rfl

@[simp] theorem State.beginCycle_v (s : State) : (s.beginCycle).v = s.v := rfl
@[simp] theorem State.beginCycle_index (s : State) : (s.beginCycle).index = s.index := rfl
@[simp] theorem State.beginCycle_pc (s : State) : (s.beginCycle).pc = s.pc := rfl
@[simp] theorem State.beginCycle_stack (s : State) : (s.beginCycle).stack = s.stack := rfl
@[simp] theorem State.beginCycle_sp (s : State) : (s.beginCycle).sp = s.sp := rfl
@[simp] theorem State.beginCycle_mem (s : State) : (s.beginCycle).mem = s.mem := rfl
@[simp] theorem State.beginCycle_fb (s : State) : (s.beginCycle).fb = s.fb := rfl
@[simp] theorem State.beginCycle_dt (s : State) : (s.beginCycle).dt = s.dt := rfl
@[simp] theorem State.beginCycle_st (s : State) : (s.beginCycle).st = s.st := rfl
@[simp] theorem State.beginCycle_clockSpeed (s : State) :
    (s.beginCycle).clockSpeed = (((Config.environment s.cycle).setClock.bind s.setClockSpeed).getD s).clockSpeed := rfl
@[simp] theorem State.beginCycle_paceLast (s : State) : (s.beginCycle).paceLast = s.paceLast := rfl
@[simp] theorem State.beginCycle_run (s : State) : (s.beginCycle).run = .running := rfl
@[simp] theorem State.beginCycle_awaitingKey (s : State) : (s.beginCycle).awaitingKey = false := rfl
@[simp] theorem State.beginCycle_events (s : State) : (s.beginCycle).events = s.events := rfl
@[simp] theorem State.beginCycle_now (s : State) : (s.beginCycle).now = s.now := rfl
@[simp] theorem State.beginCycle_env (s : State) : (s.beginCycle).env = Config.environment s.cycle := rfl
@[simp] theorem State.beginCycle_cycle (s : State) : (s.beginCycle).cycle = s.cycle + 1 := rfl
@[simp] theorem State.beginCycle_params (s : State) : (s.beginCycle).params = s.params := rfl

@[simp] theorem State.pace_v (s : State) : (s.pace).v = s.v := rfl
@[simp] theorem State.pace_index (s : State) : (s.pace).index = s.index := rfl
@[simp] theorem State.pace_pc (s : State) : (s.pace).pc = s.pc := rfl
@[simp] theorem State.pace_stack (s : State) : (s.pace).stack = s.stack := rfl
@[simp] theorem State.pace_sp (s : State) : (s.pace).sp = s.sp := rfl
@[simp] theorem State.pace_mem (s : State) : (s.pace).mem = s.mem := rfl
@[simp] theorem State.pace_fb (s : State) : (s.pace).fb = s.fb := rfl
@[simp] theorem State.pace_dt (s : State) : (s.pace).dt = s.dt := rfl
@[simp] theorem State.pace_st (s : State) : (s.pace).st = s.st := rfl
@[simp] theorem State.pace_clockSpeed (s : State) : (s.pace).clockSpeed = s.clockSpeed := rfl
@[simp] theorem State.pace_run (s : State) : (s.pace).run = s.run := rfl
@[simp] theorem State.pace_awaitingKey (s : State) : (s.pace).awaitingKey = s.awaitingKey := rfl
@[simp] theorem State.pace_events (s : State) : (s.pace).events = s.events := rfl
@[simp] theorem State.pace_env (s : State) : (s.pace).env = s.env := rfl
@[simp] theorem State.pace_cycle (s : State) : (s.pace).cycle = s.cycle := rfl
@[simp] theorem State.pace_params (s : State) : (s.pace).params = s.params := rfl

@[simp] theorem State.tickTimers_v (s : State) : (s.tickTimers).v = s.v := rfl
@[simp] theorem State.tickTimers_index (s : State) : (s.tickTimers).index = s.index := rfl
@[simp] theorem State.tickTimers_pc (s : State) : (s.tickTimers).pc = s.pc := rfl
@[simp] theorem State.tickTimers_stack (s : State) : (s.tickTimers).stack = s.stack := rfl
@[simp] theorem State.tickTimers_sp (s : State) : (s.tickTimers).sp = s.sp := rfl
@[simp] theorem State.tickTimers_mem (s : State) : (s.tickTimers).mem = s.mem := rfl
@[simp] theorem State.tickTimers_fb (s : State) : (s.tickTimers).fb = s.fb := rfl
@[simp] theorem State.tickTimers_dt (s : State) :
    (s.tickTimers).dt = s.dt.tick s.params.timerPeriod (laterOf s.now s.env.tickTime) := rfl
@[simp] theorem State.tickTimers_st (s : State) :
    (s.tickTimers).st = s.st.tick s.params.timerPeriod (laterOf s.now s.env.tickTime) := rfl
@[simp] theorem State.tickTimers_clockSpeed (s : State) : (s.tickTimers).clockSpeed = s.clockSpeed := rfl
@[simp] theorem State.tickTimers_paceLast (s : State) : (s.tickTimers).paceLast = s.paceLast := rfl
@[simp] theorem State.tickTimers_run (s : State) : (s.tickTimers).run = s.run := rfl
@[simp] theorem State.tickTimers_awaitingKey (s : State) : (s.tickTimers).awaitingKey = s.awaitingKey := rfl
@[simp] theorem State.tickTimers_events (s : State) : (s.tickTimers).events = s.events := rfl
@[simp] theorem State.tickTimers_now (s : State) : (s.tickTimers).now = laterOf s.now s.env.tickTime := rfl
@[simp] theorem State.tickTimers_env (s : State) : (s.tickTimers).env = s.env := rfl
@[simp] theorem State.tickTimers_cycle (s : State) : (s.tickTimers).cycle = s.cycle := rfl
@[simp] theorem State.tickTimers_params (s : State) : (s.tickTimers).params = s.params := rfl

end Sys2Proof.Machine
end

