-- ==== Sys2Proof/Laws/Memory.lean ====
section
/-! SUPPORT. Memory: reads after writes, and that every memory operation keeps the canonical form. -/

namespace Sys2Proof.Machine

theorem Memory.read_cons (b : Nat) (v : Byte) (m : List Host.Cell) (a : Nat) :
    Memory.read ((b, v) :: m) a = if a = b then v else Memory.read m a := rfl

/-- An address below every listed one reads as unlisted. -/
theorem Memory.read_of_all_above (m : List Host.Cell) (a : Nat) (h : ∀ c ∈ m, a < c.1) :
    Memory.read m a = Memory.unlisted a := by
  induction m with
  | nil => rfl
  | cons c m ih =>
    obtain ⟨b, v⟩ := c
    have hb : a < b := h (b, v) (by simp)
    rw [Memory.read_cons, if_neg (by omega), ih (fun d hd => h d (by simp [hd]))]

theorem Memory.read_put_other (a b : Nat) (v : Byte) (m : List Host.Cell) (h : b ≠ a) :
    Memory.read (Memory.put a v m) b = Memory.read m b := by
  unfold Memory.put
  split
  · rfl
  · rw [Memory.read_cons, if_neg h]

theorem Memory.read_put_same (a : Nat) (v : Byte) (m : List Host.Cell) (h : ∀ c ∈ m, a < c.1) :
    Memory.read (Memory.put a v m) a = v := by
  unfold Memory.put
  split
  · rename_i hv; rw [Memory.read_of_all_above m a h, hv]
  · simp [Memory.read_cons]

/-- A write leaves every other byte as it was (R69), in any memory. -/
theorem Memory.read_write_other (m : List Host.Cell) (a b : Nat) (v : Byte) (h : b ≠ a) :
    Memory.read (Memory.write m a v) b = Memory.read m b := by
  induction m with
  | nil => exact Memory.read_put_other a b v [] h
  | cons c m ih =>
    obtain ⟨d, w⟩ := c
    unfold Memory.write
    split
    · exact Memory.read_put_other a b v _ h
    · split
      · rename_i hd
        rw [Memory.read_put_other a b v _ h, Memory.read_cons, if_neg (by omega)]
      · simp only [Memory.read_cons, ih]

theorem Memory.wf_nil : Memory.WF [] := by simp [Memory.WF]

theorem Memory.WF.tail {c : Host.Cell} {m : List Host.Cell} (h : Memory.WF (c :: m)) : Memory.WF m :=
  ⟨(List.pairwise_cons.1 h.1).2, fun d hd => h.2 d (by simp [hd])⟩

theorem Memory.WF.head_lt {c : Host.Cell} {m : List Host.Cell} (h : Memory.WF (c :: m)) : ∀ d ∈ m, c.1 < d.1 :=
  (List.pairwise_cons.1 h.1).1

/-- A read after a write to the same address gives the byte written. -/
theorem Memory.read_write_same (m : List Host.Cell) (a : Nat) (v : Byte) (hm : Memory.WF m) :
    Memory.read (Memory.write m a v) a = v := by
  induction m with
  | nil => exact Memory.read_put_same a v [] (by simp)
  | cons c m ih =>
    obtain ⟨b, w⟩ := c
    have hlt := hm.head_lt
    unfold Memory.write
    split
    · rename_i hab
      refine Memory.read_put_same a v _ fun d hd => ?_
      rcases List.mem_cons.1 hd with rfl | hd
      · exact hab
      · exact lt_trans hab (hlt d hd)
    · split
      · rename_i hab
        exact Memory.read_put_same a v _ fun d hd => by simpa [hab] using hlt d hd
      · rename_i h1 h2
        rw [Memory.read_cons, if_neg h2, ih hm.tail]

theorem Memory.read_write (m : List Host.Cell) (a b : Nat) (v : Byte) (hm : Memory.WF m) :
    Memory.read (Memory.write m a v) b = if b = a then v else Memory.read m b := by
  by_cases h : b = a
  · rw [if_pos h, h, Memory.read_write_same m a v hm]
  · rw [if_neg h, Memory.read_write_other m a b v h]

theorem Memory.wf_put {a : Nat} {v : Byte} {m : List Host.Cell} (hm : Memory.WF m) (ha : a ≤ topAddress)
    (h : ∀ c ∈ m, a < c.1) : Memory.WF (Memory.put a v m) := by
  unfold Memory.put
  split
  · exact hm
  · rename_i hv
    refine ⟨List.pairwise_cons.2 ⟨h, hm.1⟩, fun c hc => ?_⟩
    rcases List.mem_cons.1 hc with rfl | hc
    · exact ⟨ha, hv⟩
    · exact hm.2 c hc

theorem Memory.mem_put {a : Nat} {v : Byte} {m : List Host.Cell} {c : Host.Cell} (h : c ∈ Memory.put a v m) :
    c.1 = a ∨ c ∈ m := by
  unfold Memory.put at h
  split at h
  · exact .inr h
  · rcases List.mem_cons.1 h with rfl | h
    · exact .inl rfl
    · exact .inr h

theorem Memory.mem_write {a : Nat} {v : Byte} {m : List Host.Cell} {c : Host.Cell} (h : c ∈ Memory.write m a v) :
    c.1 = a ∨ c ∈ m := by
  induction m with
  | nil => exact Memory.mem_put h
  | cons d m ih =>
    obtain ⟨b, w⟩ := d
    unfold Memory.write at h
    split at h
    · exact Memory.mem_put h
    · split at h
      · exact (Memory.mem_put h).imp_right fun h => by simp [h]
      · rcases List.mem_cons.1 h with rfl | h
        · exact .inr (by simp)
        · exact (ih h).imp_right fun h => by simp [h]

/-- A write inside memory keeps the canonical form. -/
theorem Memory.wf_write (m : List Host.Cell) (a : Nat) (v : Byte) (hm : Memory.WF m) (ha : a ≤ topAddress) :
    Memory.WF (Memory.write m a v) := by
  induction m with
  | nil => exact Memory.wf_put hm ha (by simp)
  | cons c m ih =>
    obtain ⟨b, w⟩ := c
    have hlt := hm.head_lt
    unfold Memory.write
    split
    · rename_i hab
      refine Memory.wf_put hm ha fun d hd => ?_
      rcases List.mem_cons.1 hd with rfl | hd
      · exact hab
      · exact lt_trans hab (hlt d hd)
    · split
      · rename_i hab
        exact Memory.wf_put hm.tail ha fun d hd => by simpa [hab] using hlt d hd
      · rename_i h1 h2
        have ih := ih hm.tail
        refine ⟨List.pairwise_cons.2 ⟨fun d hd => ?_, ih.1⟩, fun d hd => ?_⟩
        · rcases Memory.mem_write hd with hd | hd
          · show b < d.1; omega
          · exact hlt d hd
        · rcases List.mem_cons.1 hd with rfl | hd
          · exact hm.2 _ (by simp)
          · exact ih.2 d hd

theorem Memory.read_writeBytes_other (bytes : List Byte) : ∀ (m : List Host.Cell) (a b : Nat),
    (b < a ∨ a + bytes.length ≤ b) → Memory.read (Memory.writeBytes m a bytes) b = Memory.read m b := by
  induction bytes with
  | nil => intros; rfl
  | cons v bytes ih =>
    intro m a b h
    simp only [List.length_cons] at h
    rw [Memory.writeBytes, ih _ _ _ (by omega), Memory.read_write_other _ _ _ _ (by omega)]

theorem Memory.wf_writeBytes (bytes : List Byte) : ∀ (m : List Host.Cell) (a : Nat), Memory.WF m →
    a + bytes.length ≤ topAddress + 1 → Memory.WF (Memory.writeBytes m a bytes) := by
  induction bytes with
  | nil => intro m a hm _; exact hm
  | cons v bytes ih =>
    intro m a hm h
    simp only [List.length_cons] at h
    exact ih _ _ (Memory.wf_write m a v hm (by omega)) (by omega)

/-- Bytes written are read back, each at its place. -/
theorem Memory.read_writeBytes (bytes : List Byte) : ∀ (m : List Host.Cell) (a k : Nat), Memory.WF m →
    a + bytes.length ≤ topAddress + 1 → (hk : k < bytes.length) →
    Memory.read (Memory.writeBytes m a bytes) (a + k) = bytes[k] := by
  induction bytes with
  | nil => intro m a k _ _ hk; simp at hk
  | cons v bytes ih =>
    intro m a k hm h hk
    simp only [List.length_cons] at h hk
    rw [Memory.writeBytes]
    have hw := Memory.wf_write m a v hm (by omega)
    cases k with
    | zero =>
      rw [Memory.read_writeBytes_other _ _ _ _ (by omega)]
      simpa using Memory.read_write_same m a v hm
    | succ k =>
      have := ih (Memory.write m a v) (a + 1) k hw (by omega) (by omega)
      rw [show a + (k + 1) = a + 1 + k by omega, this, List.getElem_cons_succ]

end Sys2Proof.Machine
end

