-- ==== Sys2Proof/Laws/Registers.lean ====
section
/-! SUPPORT. Reading a register after each update. -/

namespace Sys2Proof.Machine

theorem State.getV_setV (s : State) (x y : Nibble) (b : Byte) :
    (s.setV x b).getV y = if y = x then b else s.getV y := by
  by_cases h : y = x
  · subst h; simp [State.getV, State.setV]
  · have hn : x.toNat ≠ y.toNat := fun e => h (BitVec.eq_of_toNat_eq e.symm)
    simp [State.getV, State.setV, h, hn]

@[simp] theorem State.getV_setV_same (s : State) (x : Nibble) (b : Byte) : (s.setV x b).getV x = b := by
  simp [State.getV_setV]

theorem State.getV_setFlag (s : State) (y : Nibble) (b : Byte) :
    (s.setFlag b).getV y = if y = 15 then b else s.getV y := State.getV_setV s 15 y b

@[simp] theorem State.getV_jump (s : State) (a : Word) (y : Nibble) : (s.jump a).getV y = s.getV y := rfl
@[simp] theorem State.getV_advance (s : State) (y : Nibble) : s.advance.getV y = s.getV y := rfl
@[simp] theorem State.getV_skipIf (s : State) (c : Bool) (y : Nibble) : (s.skipIf c).getV y = s.getV y := rfl
@[simp] theorem State.getV_setIndex (s : State) (a : Word) (y : Nibble) : (s.setIndex a).getV y = s.getV y := rfl
@[simp] theorem State.getV_raiseFatal (s : State) (g : FatalTag) (y : Nibble) : (s.raiseFatal g).getV y = s.getV y := rfl
@[simp] theorem State.getV_writeByte (s : State) (a : Nat) (b : Byte) (y : Nibble) :
    (s.writeByte a b).getV y = s.getV y := rfl
@[simp] theorem State.getV_signal (s : State) (e : DisplayEvent) (y : Nibble) : (s.signal e).getV y = s.getV y := rfl
@[simp] theorem State.getV_readClock (s : State) (r : Instant) (y : Nibble) : (s.readClock r).getV y = s.getV y := rfl

/-- A result, then a flag: VF holds the flag, `V[x]` the result unless it is VF, every other register is unchanged (R26). -/
theorem State.getV_finishFlag (s : State) (x r : Nibble) (b f : Byte) :
    (s.finishFlag x b f).getV r = if r = 15 then f else if r = x then b else s.getV r := by
  simp [State.finishFlag, State.getV_setFlag, State.getV_setV]

theorem State.getV_finish (s : State) (x r : Nibble) (b : Byte) :
    (s.finish x b).getV r = if r = x then b else s.getV r := by
  simp [State.finish, State.getV_setV]

/-- A result writes registers and advances `pc`, nothing else. -/
theorem State.finish_frame (s : State) (x : Nibble) (b : Byte) :
    s.finish x b = { s with v := (s.finish x b).v, pc := s.pc + 2 } := rfl

theorem State.finishFlag_frame (s : State) (x : Nibble) (b f : Byte) :
    s.finishFlag x b f = { s with v := (s.finishFlag x b f).v, pc := s.pc + 2 } := rfl

end Sys2Proof.Machine
end

