-- ==== Sys2Proof/Laws/Loops.lean ====
section
/-! SUPPORT. What the register dump and load loops of `FX55` and `FX65` do (R185, R186). -/

namespace Sys2Proof.Machine

/-- The dump writes memory and nothing else. -/
theorem State.storeRegs_frame (s : State) (base n : Nat) :
    s.storeRegs base n = { s with mem := (s.storeRegs base n).mem } := by
  induction n with
  | zero => rfl
  | succ k ih => rw [State.storeRegs, ih]; rfl

theorem State.readByte_storeRegs_other (s : State) (base n a : Nat) (h : a < base ∨ base + n ≤ a) :
    (s.storeRegs base n).readByte a = s.readByte a := by
  induction n with
  | zero => rfl
  | succ k ih =>
    rw [State.storeRegs, State.readByte, State.writeByte_mem, Memory.read_write_other _ _ _ _ (by omega)]
    exact ih (by omega)

theorem State.wf_storeRegs (s : State) (base n : Nat) (hm : Memory.WF s.mem) (h : base + n ≤ topAddress + 1) :
    Memory.WF (s.storeRegs base n).mem := by
  induction n with
  | zero => exact hm
  | succ k ih => exact Memory.wf_write _ _ _ (ih (by omega)) (by omega)

/-- The byte at `base + k` is `V[k]` after a dump that reaches it. -/
theorem State.readByte_storeRegs (s : State) (base n k : Nat) (hm : Memory.WF s.mem)
    (h : base + n ≤ topAddress + 1) (hk : k < n) :
    (s.storeRegs base n).readByte (base + k) = s.getV (BitVec.ofNat 4 k) := by
  induction n with
  | zero => omega
  | succ j ih =>
    rw [State.storeRegs, State.readByte, State.writeByte_mem,
      Memory.read_write _ _ _ _ (State.wf_storeRegs s base j hm (by omega))]
    by_cases hkj : k = j
    · simp [hkj]
    · rw [if_neg (by omega)]; exact ih (by omega) (by omega)

/-- The load writes registers and nothing else. -/
theorem State.loadRegs_frame (s : State) (base n : Nat) :
    s.loadRegs base n = { s with v := (s.loadRegs base n).v } := by
  induction n with
  | zero => rfl
  | succ k ih => rw [State.loadRegs, ih]; rfl

/-- After the load, the first `n` registers hold the bytes from `base` upward and the others are unchanged. -/
theorem State.getV_loadRegs (s : State) (base n : Nat) (y : Nibble) (hn : n ≤ 16) :
    (s.loadRegs base n).getV y = if y.toNat < n then s.readByte (base + y.toNat) else s.getV y := by
  induction n with
  | zero => simp [State.loadRegs]
  | succ k ih =>
    have hk : (BitVec.ofNat 4 k).toNat = k := by simp; omega
    rw [State.loadRegs, State.getV_setV, ih (by omega)]
    by_cases h : y = BitVec.ofNat 4 k
    · simp [h, hk]
    · have hy : y.toNat ≠ k := fun e => h (BitVec.eq_of_toNat_eq (by rw [hk, e]))
      rw [if_neg h]
      by_cases hlt : y.toNat < k
      · rw [if_pos hlt, if_pos (by omega)]
      · rw [if_neg hlt, if_neg (by omega)]

end Sys2Proof.Machine
end

