-- ==== Sys2Proof/Laws/Ops.lean ====
section
/-! SUPPORT. What each shared operation over stack, range check, fetch, clock and run state can do. -/

namespace Sys2Proof.Machine

/-- A push succeeds exactly when fewer than 16 addresses are held, and then writes slot `SP` and increments `SP` (R32). -/
theorem State.push_eq_some {s t : State} {a : Word} (h : s.push a = some t) :
    ∃ hs : s.sp.val < 16, t = { s with stack := s.stack.set s.sp.val a hs, sp := ⟨s.sp.val + 1, by omega⟩ } := by
  unfold State.push at h
  split at h
  · rename_i hs; exact ⟨hs, by simpa using h.symm⟩
  · cases h

theorem State.push_of_lt (s : State) (a : Word) (hs : s.sp.val < 16) :
    s.push a = some { s with stack := s.stack.set s.sp.val a hs, sp := ⟨s.sp.val + 1, by omega⟩ } := by
  simp [State.push, hs]

theorem State.push_of_full (s : State) (a : Word) (hs : s.sp = 16) : s.push a = none := by
  simp [State.push, hs]

/-- A pop succeeds exactly when an address is held; it gives the newest one and decrements `SP` (R32). -/
theorem State.pop_eq_some {s t : State} {a : Word} (h : s.pop = some (a, t)) :
    ∃ hs : 0 < s.sp.val, a = s.stack[s.sp.val - 1]'(by omega) ∧ t = { s with sp := ⟨s.sp.val - 1, by omega⟩ } := by
  unfold State.pop at h
  split at h
  · rename_i hs
    simp only [Option.some.injEq, Prod.mk.injEq] at h
    exact ⟨hs, h.1.symm, h.2.symm⟩
  · cases h

theorem State.pop_of_pos (s : State) (hs : 0 < s.sp.val) :
    s.pop = some (s.stack[s.sp.val - 1]'(by omega), { s with sp := ⟨s.sp.val - 1, by omega⟩ }) := by
  simp [State.pop, hs]

theorem State.pop_of_empty (s : State) (hs : s.sp = 0) : s.pop = none := by
  simp [State.pop, hs]

/-- The range check in words: no access, or the highest address at most `0xFFF` (R65). -/
theorem inRange_iff (base count : Nat) : inRange base count = true ↔ count = 0 ∨ base + count - 1 ≤ 0xFFF := by
  simp [inRange, topAddress]

/-- A guarded effect happens, or the error is raised with no other effect (R65). -/
theorem State.ifInRange_cases (s : State) (base count : Nat) (k : State) :
    (inRange base count = true ∧ s.ifInRange base count k = k) ∨
      (inRange base count = false ∧ s.ifInRange base count k = s.raiseFatal .memoryOutOfBounds) := by
  unfold State.ifInRange
  cases h : inRange base count <;> simp

/-- A fetch gives a word exactly when both bytes lie in memory (R66). -/
theorem State.fetch_eq_ok {s : State} {w : Word} (h : s.fetch = .ok w) :
    s.pc.toNat + 1 ≤ topAddress ∧ w = wordOfBytes (s.readByte s.pc.toNat) (s.readByte (s.pc.toNat + 1)) := by
  unfold State.fetch at h
  split at h
  · rename_i hp; exact ⟨hp, by simpa using h.symm⟩
  · cases h

theorem le_laterOf_left (a b : Instant) : a ≤ laterOf a b := by
  unfold laterOf; split
  · assumption
  · exact le_refl a

theorem le_laterOf_right (a b : Instant) : b ≤ laterOf a b := by
  unfold laterOf; split
  · exact le_refl b
  · exact le_of_lt (lt_of_not_ge ‹_›)

/-- The pacer goes on no earlier than the phase began, and no earlier than one interval after `PACE_last` (R293). -/
theorem le_paceRelease (last interval begun : ℚ) :
    begun ≤ paceRelease last interval begun ∧ last + interval ≤ paceRelease last interval begun := by
  unfold paceRelease; split
  · constructor <;> linarith
  · constructor <;> linarith

/-- A tick leaves the timer, or takes one from a nonzero count and records the instant (R252). -/
theorem Timer.tick_cases (T : Timer) (period : ℚ) (t : Instant) :
    (T.count ≠ 0 ∧ period ≤ t - T.last ∧ T.tick period t = { count := T.count - 1, last := t }) ∨
      (¬(T.count ≠ 0 ∧ period ≤ t - T.last) ∧ T.tick period t = T) := by
  unfold Timer.tick
  by_cases h : T.count ≠ 0 ∧ period ≤ t - T.last
  · exact .inl ⟨h.1, h.2, if_pos h⟩
  · exact .inr ⟨h, if_neg h⟩

theorem clockSetting_pos (hz : Nat) : 0 < clockSetting hz := by
  unfold clockSetting Config.defaultClockSpeed; split <;> omega

/-- `ROM_MAX` is from 1 to 3584 (R283). -/
theorem romMax_bounds (p : Params) : 1 ≤ p.romMax ∧ p.romMax ≤ 3584 := by
  unfold Params.romMax; omega

/-- A setting of the clock speed is made only between cycles, and then stores the rate, 0 as 500 (R261, R289). -/
theorem State.setClockSpeed_eq_some {s t : State} {hz : Nat} (h : s.setClockSpeed hz = some t) :
    s.awaitingKey = false ∧ t = { s with clockSpeed := clockSetting hz } := by
  unfold State.setClockSpeed at h
  split at h
  · cases h
  · rename_i hw; exact ⟨by simpa using hw, by simpa using h.symm⟩

/-- The clock speed a cycle begins with: the old one, or a setting's, which is positive (R261, R295). -/
theorem State.beginCycle_clockSpeed_cases (s : State) :
    s.beginCycle.clockSpeed = s.clockSpeed ∨ ∃ hz, s.beginCycle.clockSpeed = clockSetting hz := by
  rw [State.beginCycle_clockSpeed]
  cases (Config.environment s.cycle).setClock with
  | none => exact .inl rfl
  | some hz =>
    simp only [Option.bind_some]
    cases h : s.setClockSpeed hz with
    | none => exact .inl rfl
    | some t => exact .inr ⟨hz, by rw [(State.setClockSpeed_eq_some h).2]; rfl⟩

/-- A load succeeds only while `Uninitialized` with an image that fits, and then does what R283 lists. -/
theorem State.load_eq_ok {s t : State} {rom : List Byte} {reading : Instant} (h : s.load rom reading = .ok t) :
    s.run = .uninitialized ∧ rom ≠ [] ∧ rom.length ≤ s.params.romMax ∧
      t = { s.readClock reading with
            mem := Memory.writeBytes s.mem programBase rom, pc := BitVec.ofNat 16 programBase,
            paceLast := laterOf s.now reading, run := .ready } := by
  unfold State.load at h
  split at h
  · cases h
  · rename_i h1
    split at h
    · cases h
    · rename_i h2
      split at h
      · cases h
      · rename_i h3
        simp only [Except.ok.injEq] at h
        exact ⟨by simpa using h1, h2, by omega, h.symm⟩

/-- A phase end changes nothing but the clock, the timers and `PACE_last` (R262). -/
theorem State.endCycle_frame (s : State) :
    s.endCycle = { s with now := s.endCycle.now, dt := s.endCycle.dt, st := s.endCycle.st,
                          paceLast := s.endCycle.paceLast } := by
  unfold State.endCycle; split <;> rfl

/-- What a step can do (R262, R263): raise `MissingRom`, stay halted, or run a cycle that ends in a fatal error at fetch
or decode, or in the instruction's outcome. -/
theorem step_cases {s t : State} (h : step s = .next t) :
    (s.run = .uninitialized ∧ t = s.raiseFatal .missingRom) ∨
    ((∃ g, s.run = .halted g) ∧ t = s) ∨
    ((s.run = .ready ∨ s.run = .running) ∧
      ((∃ g, s.beginCycle.fetch = .error g ∧ t = s.beginCycle.raiseFatal g) ∨
       (∃ w, s.beginCycle.fetch = .ok w ∧ decodeWord w = none ∧ t = s.beginCycle.raiseFatal .unknownOpcode) ∨
       (∃ w i u, s.beginCycle.fetch = .ok w ∧ decodeWord w = some i ∧ exec i s.beginCycle = .next u ∧ t = u.endCycle))) := by
  have cyc : runCycle s = .next t →
      ((∃ g, s.beginCycle.fetch = .error g ∧ t = s.beginCycle.raiseFatal g) ∨
       (∃ w, s.beginCycle.fetch = .ok w ∧ decodeWord w = none ∧ t = s.beginCycle.raiseFatal .unknownOpcode) ∨
       (∃ w i u, s.beginCycle.fetch = .ok w ∧ decodeWord w = some i ∧ exec i s.beginCycle = .next u ∧
         t = u.endCycle)) := by
    intro h
    unfold runCycle at h
    simp only at h
    split at h
    · rename_i g hg; exact .inl ⟨g, hg, by simpa using h.symm⟩
    · rename_i w hw
      split at h
      · rename_i hd; exact .inr (.inl ⟨w, hw, hd, by simpa using h.symm⟩)
      · rename_i i hd
        split at h
        · rename_i u hu; exact .inr (.inr ⟨w, i, u, hw, hd, hu, by simpa using h.symm⟩)
        · cases h
        · cases h
  unfold step at h
  split at h
  · rename_i hr; exact .inl ⟨hr, by simpa using h.symm⟩
  · rename_i g hr; exact .inr (.inl ⟨⟨g, hr⟩, by simpa using h.symm⟩)
  · rename_i hr; exact .inr (.inr ⟨.inl hr, cyc h⟩)
  · rename_i hr; exact .inr (.inr ⟨.inr hr, cyc h⟩)

end Sys2Proof.Machine
end

