-- ==== Sys2Proof/Laws/Draw.lean ====
section
/-! SUPPORT. What drawing a sprite does to each cell (R202 to R204): within one draw every cell is touched at most once, so a
cell changes exactly when a set sprite bit covers it, and the hit is a covered cell that was set. -/

namespace Sys2Proof.Machine

theorem cellIndex_lt (c r : Nat) : cellIndex c r < 2048 := by unfold cellIndex; omega

/-- Toggling one cell changes it and no other. -/
theorem cellAt_toggleCell (fb : Frame) (j k : Nat) (hj : j < 2048) :
    cellAt (toggleCell fb j) k = if k = j then !cellAt fb k else cellAt fb k := by
  unfold cellAt toggleCell
  rw [BitVec.getLsbD_xor, BitVec.getLsbD_twoPow]
  by_cases h : k = j
  · subst h; simp [hj]
  · have : ¬ j = k := fun e => h e.symm
    simp [h, this]

/-- A list of cells toggled in turn, none twice: the picture after them. -/
def Canvas.plotAll (p : Canvas) : List Nat → Canvas
  | [] => p
  | k :: ks => Canvas.plotAll (p.plot k) ks

theorem Canvas.plotAll_append (p : Canvas) (ks js : List Nat) :
    p.plotAll (ks ++ js) = (p.plotAll ks).plotAll js := by
  induction ks generalizing p with
  | nil => rfl
  | cons k ks ih => exact ih _

theorem Canvas.cellAt_plotAll (ks : List Nat) : ∀ (p : Canvas), ks.Nodup → (∀ k ∈ ks, k < 2048) → ∀ k,
    cellAt (p.plotAll ks).fb k = if k ∈ ks then !cellAt p.fb k else cellAt p.fb k := by
  induction ks with
  | nil => intros; simp [Canvas.plotAll]
  | cons j ks ih =>
    intro p hnd hlt k
    obtain ⟨hj, hnd⟩ := List.nodup_cons.1 hnd
    rw [Canvas.plotAll, ih _ hnd (fun k hk => hlt k (by simp [hk])) k, Canvas.plot,
      cellAt_toggleCell _ _ _ (hlt j (by simp))]
    by_cases hk : k = j
    · subst hk; simp [hj]
    · simp [hk]

theorem Canvas.hit_plotAll (ks : List Nat) : ∀ (p : Canvas), ks.Nodup → (∀ k ∈ ks, k < 2048) →
    ((p.plotAll ks).hit = true ↔ p.hit = true ∨ ∃ k ∈ ks, cellAt p.fb k = true) := by
  induction ks with
  | nil => intros; simp [Canvas.plotAll]
  | cons j ks ih =>
    intro p hnd hlt
    obtain ⟨hj, hnd⟩ := List.nodup_cons.1 hnd
    rw [Canvas.plotAll, ih _ hnd (fun k hk => hlt k (by simp [hk])), Canvas.plot]
    have hne : ∀ k ∈ ks, cellAt (toggleCell p.fb j) k = cellAt p.fb k := fun k hk => by
      rw [cellAt_toggleCell _ _ _ (hlt j (by simp)), if_neg (by rintro rfl; exact hj hk)]
    simp only [Bool.or_eq_true, List.mem_cons, exists_eq_or_imp, or_assoc]
    refine or_congr_right (or_congr_right ⟨?_, ?_⟩)
    · rintro ⟨k, hk, h⟩; exact ⟨k, hk, by rwa [hne k hk] at h⟩
    · rintro ⟨k, hk, h⟩; exact ⟨k, hk, by rwa [hne k hk]⟩

/-- The cells the first `count` columns of a row byte touch, in order. -/
def rowCells (b : Byte) (col row : Nat) : Nat → List Nat
  | 0 => []
  | c + 1 => rowCells b col row c ++ if b.getLsbD (7 - c) then [cellIndex (col + c) row] else []

/-- The cells the first `count` rows of a sprite touch, in order. -/
def spriteCells (mem : List Host.Cell) (base col row : Nat) : Nat → List Nat
  | 0 => []
  | r + 1 => spriteCells mem base col row r ++ rowCells (Memory.read mem (base + r)) col (row + r) 8

theorem Canvas.drawColumns_eq (p : Canvas) (b : Byte) (col row n : Nat) :
    p.drawColumns b col row n = p.plotAll (rowCells b col row n) := by
  induction n with
  | zero => rfl
  | succ c ih =>
    rw [Canvas.drawColumns, rowCells, Canvas.plotAll_append, ← ih]
    cases b.getLsbD (7 - c) <;> rfl

theorem Canvas.drawRows_eq (p : Canvas) (mem : List Host.Cell) (base col row n : Nat) :
    p.drawRows mem base col row n = p.plotAll (spriteCells mem base col row n) := by
  induction n with
  | zero => rfl
  | succ r ih => rw [Canvas.drawRows, spriteCells, Canvas.plotAll_append, ← ih, Canvas.drawColumns_eq]

theorem mem_rowCells {b : Byte} {col row n k : Nat} :
    k ∈ rowCells b col row n ↔ ∃ c < n, b.getLsbD (7 - c) = true ∧ k = cellIndex (col + c) row := by
  induction n with
  | zero => simp [rowCells]
  | succ c ih =>
    rw [rowCells, List.mem_append, ih]
    constructor
    · rintro (⟨d, hd, h⟩ | h)
      · exact ⟨d, by omega, h⟩
      · by_cases hb : b.getLsbD (7 - c) = true
        · rw [if_pos hb] at h
          exact ⟨c, by omega, hb, by simpa using h⟩
        · rw [if_neg hb] at h; cases h
    · rintro ⟨d, hd, hb, hk⟩
      by_cases hdc : d = c
      · subst hdc; exact .inr (by rw [if_pos hb]; simp [hk])
      · exact .inl ⟨d, by omega, hb, hk⟩

theorem mem_spriteCells {mem : List Host.Cell} {base col row n k : Nat} :
    k ∈ spriteCells mem base col row n ↔ ∃ r c, r < n ∧ c < 8 ∧
      (Memory.read mem (base + r)).getLsbD (7 - c) = true ∧ k = cellIndex (col + c) (row + r) := by
  induction n with
  | zero => simp [spriteCells]
  | succ m ih =>
    rw [spriteCells, List.mem_append, ih, mem_rowCells]
    constructor
    · rintro (⟨r, c, hr, h⟩ | ⟨c, hc, hb, hk⟩)
      · exact ⟨r, c, by omega, h⟩
      · exact ⟨m, c, by omega, hc, hb, hk⟩
    · rintro ⟨r, c, hr, hc, hb, hk⟩
      by_cases hrm : r = m
      · subst hrm; exact .inr ⟨c, hc, hb, hk⟩
      · exact .inl ⟨r, c, by omega, hc, hb, hk⟩

theorem nodup_rowCells (b : Byte) (col row n : Nat) (hn : n ≤ 8) : (rowCells b col row n).Nodup := by
  induction n with
  | zero => simp [rowCells]
  | succ c ih =>
    rw [rowCells]
    refine List.Nodup.append (ih (by omega)) (by split <;> simp) ?_
    intro k hk hk'
    obtain ⟨d, hd, -, rfl⟩ := mem_rowCells.1 hk
    split at hk'
    · simp only [List.mem_singleton, cellIndex] at hk'; omega
    · cases hk'

/-- Within one instruction each cell is touched at most once (R204 (c)). -/
theorem nodup_spriteCells (mem : List Host.Cell) (base col row n : Nat) (hn : n ≤ 16) :
    (spriteCells mem base col row n).Nodup := by
  induction n with
  | zero => simp [spriteCells]
  | succ m ih =>
    rw [spriteCells]
    refine List.Nodup.append (ih (by omega)) (nodup_rowCells _ _ _ _ (by omega)) ?_
    intro k hk hk'
    obtain ⟨r, c, hr, -, -, rfl⟩ := mem_spriteCells.1 hk
    obtain ⟨d, -, -, h⟩ := mem_rowCells.1 hk'
    simp only [cellIndex] at h; omega

theorem spriteCells_lt (mem : List Host.Cell) (base col row n : Nat) :
    ∀ k ∈ spriteCells mem base col row n, k < 2048 := by
  intro k hk
  obtain ⟨r, c, -, -, -, rfl⟩ := mem_spriteCells.1 hk
  exact cellIndex_lt _ _

/-- A cell of the drawn picture differs from the old one exactly when a set sprite bit covers it (R202). -/
theorem Canvas.cellAt_drawRows (p : Canvas) (mem : List Host.Cell) (base col row n k : Nat) (hn : n ≤ 16) :
    cellAt (p.drawRows mem base col row n).fb k =
      if k ∈ spriteCells mem base col row n then !cellAt p.fb k else cellAt p.fb k := by
  rw [Canvas.drawRows_eq]
  exact Canvas.cellAt_plotAll _ _ (nodup_spriteCells mem base col row n hn) (spriteCells_lt mem base col row n) k

/-- The hit of a draw: a covered cell that was set (R202). -/
theorem Canvas.hit_drawRows (p : Canvas) (mem : List Host.Cell) (base col row n : Nat) (hn : n ≤ 16) :
    (p.drawRows mem base col row n).hit = true ↔
      p.hit = true ∨ ∃ k ∈ spriteCells mem base col row n, cellAt p.fb k = true := by
  rw [Canvas.drawRows_eq]
  exact Canvas.hit_plotAll _ _ (nodup_spriteCells mem base col row n hn) (spriteCells_lt mem base col row n)

/-- Two framebuffers with the same cells are the same. -/
theorem frame_ext {f g : Frame} (h : ∀ k < 2048, cellAt f k = cellAt g k) : f = g :=
  BitVec.eq_of_getLsbD_eq fun k hk => h k hk

end Sys2Proof.Machine
end

