-- ==== Sys2Proof/Laws/Exec.lean ====
section
/-! SUPPORT. What each instruction with more than one outcome can do: its effect under its condition, or the fatal error
(or, for `FX0A`, the wait) under the other. -/

namespace Sys2Proof.Machine

theorem inRange_eq_false (base count : Nat) : inRange base count = false ↔ count ≠ 0 ∧ 0xFFF < base + count - 1 := by
  rw [← Bool.not_eq_true, inRange_iff]; omega

/-- `00EE` (R121): pop and go on after the call, or underflow. -/
theorem exec_ret_cases {s t : State} (h : exec .ret s = .next t) :
    (∃ hs : 0 < s.sp.val,
        t = { s with pc := s.stack[s.sp.val - 1]'(by omega) + 2, sp := ⟨s.sp.val - 1, by omega⟩ }) ∨
      (s.sp = 0 ∧ t = s.raiseFatal .stackUnderflow) := by
  simp only [exec, execRet, Host.Outcome.next.injEq] at h
  split at h
  · rename_i a u hu
    obtain ⟨hs, rfl, rfl⟩ := State.pop_eq_some hu
    exact .inl ⟨hs, h.symm⟩
  · rename_i hn
    refine .inr ⟨?_, h.symm⟩
    by_contra hc
    have h0 : s.sp.val ≠ 0 := fun e => hc (Fin.ext e)
    rw [State.pop_of_pos s (by omega)] at hn
    cases hn

/-- `2NNN` (R122): push and go to the target, or overflow. -/
theorem exec_call_cases {nnn : Addr} {s t : State} (h : exec (.call nnn) s = .next t) :
    (∃ hs : s.sp.val < 16,
        t = { s with pc := zextAddr nnn, stack := s.stack.set s.sp.val s.pc hs, sp := ⟨s.sp.val + 1, by omega⟩ }) ∨
      (s.sp = 16 ∧ t = s.raiseFatal .stackOverflow) := by
  simp only [exec, execCall, Host.Outcome.next.injEq] at h
  split at h
  · rename_i u hu
    obtain ⟨hs, rfl⟩ := State.push_eq_some hu
    exact .inl ⟨hs, h.symm⟩
  · rename_i hn
    refine .inr ⟨?_, h.symm⟩
    by_contra hc
    have h16 : s.sp.val ≠ 16 := fun e => hc (Fin.ext e)
    rw [State.push_of_lt s _ (by omega)] at hn
    cases hn

/-- `FX33` (R184): three digits stored, or out of bounds. -/
theorem exec_ldB_cases {x : Nibble} {s t : State} (h : exec (.ldB x) s = .next t) :
    (s.index.toNat + 2 ≤ 0xFFF ∧
        t = { s with mem := Memory.writeBytes s.mem s.baseAddress (bcdDigits (s.getV x)), pc := s.pc + 2 }) ∨
      (s.index.toNat + 2 > 0xFFF ∧ t = s.raiseFatal .memoryOutOfBounds) := by
  simp only [exec, execLdB, Host.Outcome.next.injEq] at h
  rcases State.ifInRange_cases s s.baseAddress 3 _ with ⟨a, e⟩ | ⟨a, e⟩ <;> rw [e] at h
  · rw [inRange_iff, State.baseAddress] at a; exact .inl ⟨by omega, h.symm⟩
  · rw [inRange_eq_false, State.baseAddress] at a; exact .inr ⟨by omega, h.symm⟩

/-- `FX55` (R185): the registers stored, or out of bounds. -/
theorem exec_ldMemVx_cases {x : Nibble} {s t : State} (h : exec (.ldMemVx x) s = .next t) :
    (s.index.toNat + x.toNat ≤ 0xFFF ∧
        t = { s with mem := (s.storeRegs s.baseAddress (regCount x)).mem, pc := s.pc + 2 }) ∨
      (s.index.toNat + x.toNat > 0xFFF ∧ t = s.raiseFatal .memoryOutOfBounds) := by
  simp only [exec, execLdMemVx, Host.Outcome.next.injEq] at h
  rcases State.ifInRange_cases s s.baseAddress (regCount x) _ with ⟨a, e⟩ | ⟨a, e⟩ <;> rw [e] at h
  · rw [inRange_iff, State.baseAddress, regCount] at a
    rw [State.storeRegs_frame] at h
    exact .inl ⟨by omega, h.symm⟩
  · rw [inRange_eq_false, State.baseAddress, regCount] at a; exact .inr ⟨by omega, h.symm⟩

/-- `FX65` (R186): the registers loaded, or out of bounds. -/
theorem exec_ldVxMem_cases {x : Nibble} {s t : State} (h : exec (.ldVxMem x) s = .next t) :
    (s.index.toNat + x.toNat ≤ 0xFFF ∧
        t = { s with v := (s.loadRegs s.baseAddress (regCount x)).v, pc := s.pc + 2 }) ∨
      (s.index.toNat + x.toNat > 0xFFF ∧ t = s.raiseFatal .memoryOutOfBounds) := by
  simp only [exec, execLdVxMem, Host.Outcome.next.injEq] at h
  rcases State.ifInRange_cases s s.baseAddress (regCount x) _ with ⟨a, e⟩ | ⟨a, e⟩ <;> rw [e] at h
  · rw [inRange_iff, State.baseAddress, regCount] at a
    rw [State.loadRegs_frame] at h
    exact .inl ⟨by omega, h.symm⟩
  · rw [inRange_eq_false, State.baseAddress, regCount] at a; exact .inr ⟨by omega, h.symm⟩

/-- `DXYN` (R202): the sprite drawn, or out of bounds; with no rows it cannot be out of bounds. -/
theorem exec_drw_cases {x y n : Nibble} {s t : State} (h : exec (.drw x y n) s = .next t) :
    ((n.toNat = 0 ∨ s.index.toNat + n.toNat ≤ 0x1000) ∧
        t = (s.show (s.drawn (s.getV x) (s.getV y) n)).advance) ∨
      ((n.toNat > 0 ∧ s.index.toNat + n.toNat - 1 > 0xFFF) ∧ t = s.raiseFatal .memoryOutOfBounds) := by
  simp only [exec, execDrw, Host.Outcome.next.injEq] at h
  rcases State.ifInRange_cases s s.baseAddress n.toNat _ with ⟨a, e⟩ | ⟨a, e⟩ <;> rw [e] at h
  · rw [inRange_iff, State.baseAddress] at a; exact .inl ⟨by omega, h.symm⟩
  · rw [inRange_eq_false, State.baseAddress] at a; exact .inr ⟨by omega, h.symm⟩

/-- `FX0A` (R223): the key observed goes to `V[x]`, or the wait goes on. -/
theorem exec_ldVxK_cases {x : Nibble} {s t : State} (h : exec (.ldVxK x) s = .next t) :
    (∃ k : Nibble, s.env.keyPress = some k ∧
        t = { (s.setV x (k.setWidth 8)) with awaitingKey := false, pc := s.pc + 2 }) ∨
      (s.env.keyPress = none ∧ t = { s with awaitingKey := true }) := by
  simp only [exec, execLdVxK, Host.Outcome.next.injEq] at h
  split at h
  · rename_i k hk; exact .inl ⟨k, hk, h.symm⟩
  · rename_i hk; exact .inr ⟨hk, h.symm⟩

/-- What `State.show` leaves in each register: the collision flag in VF, nothing else changed (R202). -/
theorem State.getV_show (s : State) (p : Canvas) (r : Nibble) :
    (s.show p).getV r = if r = 15 then collisionFlag p.hit else s.getV r := by
  rw [State.show, State.getV_signal, State.getV_setFlag]; rfl

/-- A sprite bit covers a cell exactly when the drawing visits the cell (R202, R203). -/
theorem State.spriteCovers_iff {s : State} {vx vy : Byte} {n : Nibble} {k : Nat} :
    s.spriteCovers vx vy n k ↔ k ∈ spriteCells s.mem s.baseAddress vx.toNat vy.toNat n.toNat := by
  rw [mem_spriteCells]; rfl

end Sys2Proof.Machine
end

