-- ==== Sys2Proof/Laws/PerInstr.lean ====
section
/-! SUPPORT. Per instruction: its row is in the opcode map and well formed, and every word that encodes it has the bits the
row fixes (30_encoding.md R95, R96). -/

namespace Sys2Proof.Laws.Encoding

/-- The row of an instruction is a well-formed row of the map, and the instruction's word matches it. -/
def Statement (i : Instr) : Prop :=
  i.row ∈ opcodeMap ∧ i.row.wellFormed = true ∧ encode i &&& i.row.mask = i.row.bits

theorem cls : Statement .cls :=
  ⟨(by decide : Instr.row .cls ∈ opcodeMap),
    (by decide : (Instr.row .cls).wellFormed = true), by decide⟩

theorem ret : Statement .ret :=
  ⟨(by decide : Instr.row .ret ∈ opcodeMap),
    (by decide : (Instr.row .ret).wellFormed = true), by decide⟩

theorem jp (nnn : Addr) : Statement (.jp nnn) :=
  ⟨(by decide : Instr.row (.jp 0) ∈ opcodeMap),
    (by decide : (Instr.row (.jp 0)).wellFormed = true), (formatA_and_F000 _ _).trans rfl⟩

theorem call (nnn : Addr) : Statement (.call nnn) :=
  ⟨(by decide : Instr.row (.call 0) ∈ opcodeMap),
    (by decide : (Instr.row (.call 0)).wellFormed = true), (formatA_and_F000 _ _).trans rfl⟩

theorem seImm (x : Nibble) (nn : Byte) : Statement (.seImm x nn) :=
  ⟨(by decide : Instr.row (.seImm 0 0) ∈ opcodeMap),
    (by decide : (Instr.row (.seImm 0 0)).wellFormed = true), (formatXI_and_F000 _ _ _).trans rfl⟩

theorem sneImm (x : Nibble) (nn : Byte) : Statement (.sneImm x nn) :=
  ⟨(by decide : Instr.row (.sneImm 0 0) ∈ opcodeMap),
    (by decide : (Instr.row (.sneImm 0 0)).wellFormed = true), (formatXI_and_F000 _ _ _).trans rfl⟩

theorem seReg (x : Nibble) (y : Nibble) : Statement (.seReg x y) :=
  ⟨(by decide : Instr.row (.seReg 0 0) ∈ opcodeMap),
    (by decide : (Instr.row (.seReg 0 0)).wellFormed = true), (formatXY_and_F00F _ _ _ _).trans rfl⟩

theorem ldImm (x : Nibble) (nn : Byte) : Statement (.ldImm x nn) :=
  ⟨(by decide : Instr.row (.ldImm 0 0) ∈ opcodeMap),
    (by decide : (Instr.row (.ldImm 0 0)).wellFormed = true), (formatXI_and_F000 _ _ _).trans rfl⟩

theorem addImm (x : Nibble) (nn : Byte) : Statement (.addImm x nn) :=
  ⟨(by decide : Instr.row (.addImm 0 0) ∈ opcodeMap),
    (by decide : (Instr.row (.addImm 0 0)).wellFormed = true), (formatXI_and_F000 _ _ _).trans rfl⟩

theorem ldReg (x : Nibble) (y : Nibble) : Statement (.ldReg x y) :=
  ⟨(by decide : Instr.row (.ldReg 0 0) ∈ opcodeMap),
    (by decide : (Instr.row (.ldReg 0 0)).wellFormed = true), (formatXY_and_F00F _ _ _ _).trans rfl⟩

theorem orReg (x : Nibble) (y : Nibble) : Statement (.orReg x y) :=
  ⟨(by decide : Instr.row (.orReg 0 0) ∈ opcodeMap),
    (by decide : (Instr.row (.orReg 0 0)).wellFormed = true), (formatXY_and_F00F _ _ _ _).trans rfl⟩

theorem andReg (x : Nibble) (y : Nibble) : Statement (.andReg x y) :=
  ⟨(by decide : Instr.row (.andReg 0 0) ∈ opcodeMap),
    (by decide : (Instr.row (.andReg 0 0)).wellFormed = true), (formatXY_and_F00F _ _ _ _).trans rfl⟩

theorem xorReg (x : Nibble) (y : Nibble) : Statement (.xorReg x y) :=
  ⟨(by decide : Instr.row (.xorReg 0 0) ∈ opcodeMap),
    (by decide : (Instr.row (.xorReg 0 0)).wellFormed = true), (formatXY_and_F00F _ _ _ _).trans rfl⟩

theorem addReg (x : Nibble) (y : Nibble) : Statement (.addReg x y) :=
  ⟨(by decide : Instr.row (.addReg 0 0) ∈ opcodeMap),
    (by decide : (Instr.row (.addReg 0 0)).wellFormed = true), (formatXY_and_F00F _ _ _ _).trans rfl⟩

theorem sub (x : Nibble) (y : Nibble) : Statement (.sub x y) :=
  ⟨(by decide : Instr.row (.sub 0 0) ∈ opcodeMap),
    (by decide : (Instr.row (.sub 0 0)).wellFormed = true), (formatXY_and_F00F _ _ _ _).trans rfl⟩

theorem shr (x : Nibble) (y : Nibble) : Statement (.shr x y) :=
  ⟨(by decide : Instr.row (.shr 0 0) ∈ opcodeMap),
    (by decide : (Instr.row (.shr 0 0)).wellFormed = true), (formatXY_and_F00F _ _ _ _).trans rfl⟩

theorem subn (x : Nibble) (y : Nibble) : Statement (.subn x y) :=
  ⟨(by decide : Instr.row (.subn 0 0) ∈ opcodeMap),
    (by decide : (Instr.row (.subn 0 0)).wellFormed = true), (formatXY_and_F00F _ _ _ _).trans rfl⟩

theorem shl (x : Nibble) (y : Nibble) : Statement (.shl x y) :=
  ⟨(by decide : Instr.row (.shl 0 0) ∈ opcodeMap),
    (by decide : (Instr.row (.shl 0 0)).wellFormed = true), (formatXY_and_F00F _ _ _ _).trans rfl⟩

theorem sneReg (x : Nibble) (y : Nibble) : Statement (.sneReg x y) :=
  ⟨(by decide : Instr.row (.sneReg 0 0) ∈ opcodeMap),
    (by decide : (Instr.row (.sneReg 0 0)).wellFormed = true), (formatXY_and_F00F _ _ _ _).trans rfl⟩

theorem ldI (nnn : Addr) : Statement (.ldI nnn) :=
  ⟨(by decide : Instr.row (.ldI 0) ∈ opcodeMap),
    (by decide : (Instr.row (.ldI 0)).wellFormed = true), (formatA_and_F000 _ _).trans rfl⟩

theorem jpV0 (nnn : Addr) : Statement (.jpV0 nnn) :=
  ⟨(by decide : Instr.row (.jpV0 0) ∈ opcodeMap),
    (by decide : (Instr.row (.jpV0 0)).wellFormed = true), (formatA_and_F000 _ _).trans rfl⟩

theorem rnd (x : Nibble) (nn : Byte) : Statement (.rnd x nn) :=
  ⟨(by decide : Instr.row (.rnd 0 0) ∈ opcodeMap),
    (by decide : (Instr.row (.rnd 0 0)).wellFormed = true), (formatXI_and_F000 _ _ _).trans rfl⟩

theorem drw (x : Nibble) (y : Nibble) (n : Nibble) : Statement (.drw x y n) :=
  ⟨(by decide : Instr.row (.drw 0 0 0) ∈ opcodeMap),
    (by decide : (Instr.row (.drw 0 0 0)).wellFormed = true), (formatXY_and_F000 _ _ _ _).trans rfl⟩

theorem skp (x : Nibble) : Statement (.skp x) :=
  ⟨(by decide : Instr.row (.skp 0) ∈ opcodeMap),
    (by decide : (Instr.row (.skp 0)).wellFormed = true), (formatXI_and_F0FF _ _ _).trans rfl⟩

theorem sknp (x : Nibble) : Statement (.sknp x) :=
  ⟨(by decide : Instr.row (.sknp 0) ∈ opcodeMap),
    (by decide : (Instr.row (.sknp 0)).wellFormed = true), (formatXI_and_F0FF _ _ _).trans rfl⟩

theorem ldVxDt (x : Nibble) : Statement (.ldVxDt x) :=
  ⟨(by decide : Instr.row (.ldVxDt 0) ∈ opcodeMap),
    (by decide : (Instr.row (.ldVxDt 0)).wellFormed = true), (formatXI_and_F0FF _ _ _).trans rfl⟩

theorem ldVxK (x : Nibble) : Statement (.ldVxK x) :=
  ⟨(by decide : Instr.row (.ldVxK 0) ∈ opcodeMap),
    (by decide : (Instr.row (.ldVxK 0)).wellFormed = true), (formatXI_and_F0FF _ _ _).trans rfl⟩

theorem ldDtVx (x : Nibble) : Statement (.ldDtVx x) :=
  ⟨(by decide : Instr.row (.ldDtVx 0) ∈ opcodeMap),
    (by decide : (Instr.row (.ldDtVx 0)).wellFormed = true), (formatXI_and_F0FF _ _ _).trans rfl⟩

theorem ldStVx (x : Nibble) : Statement (.ldStVx x) :=
  ⟨(by decide : Instr.row (.ldStVx 0) ∈ opcodeMap),
    (by decide : (Instr.row (.ldStVx 0)).wellFormed = true), (formatXI_and_F0FF _ _ _).trans rfl⟩

theorem addI (x : Nibble) : Statement (.addI x) :=
  ⟨(by decide : Instr.row (.addI 0) ∈ opcodeMap),
    (by decide : (Instr.row (.addI 0)).wellFormed = true), (formatXI_and_F0FF _ _ _).trans rfl⟩

theorem ldF (x : Nibble) : Statement (.ldF x) :=
  ⟨(by decide : Instr.row (.ldF 0) ∈ opcodeMap),
    (by decide : (Instr.row (.ldF 0)).wellFormed = true), (formatXI_and_F0FF _ _ _).trans rfl⟩

theorem ldB (x : Nibble) : Statement (.ldB x) :=
  ⟨(by decide : Instr.row (.ldB 0) ∈ opcodeMap),
    (by decide : (Instr.row (.ldB 0)).wellFormed = true), (formatXI_and_F0FF _ _ _).trans rfl⟩

theorem ldMemVx (x : Nibble) : Statement (.ldMemVx x) :=
  ⟨(by decide : Instr.row (.ldMemVx 0) ∈ opcodeMap),
    (by decide : (Instr.row (.ldMemVx 0)).wellFormed = true), (formatXI_and_F0FF _ _ _).trans rfl⟩

theorem ldVxMem (x : Nibble) : Statement (.ldVxMem x) :=
  ⟨(by decide : Instr.row (.ldVxMem 0) ∈ opcodeMap),
    (by decide : (Instr.row (.ldVxMem 0)).wellFormed = true), (formatXI_and_F0FF _ _ _).trans rfl⟩

end Sys2Proof.Laws.Encoding
end

