-- ==== Sys2Proof/Tests/Slice0.lean ====
section
/-! SUPPORT. The model's own tests: expected results are those of 95_test_vectors.md (each test names its vector) or of the
rule it names, never the model's answer; and the witnesses that the hypotheses of each statement can be met. -/

namespace Sys2Proof.Tests

open Sys2Proof Sys2Proof.Machine

/-! ## Well-formedness: one ill-formed term for each check -/

theorem test_wf_map : opcodeMapWellFormed opcodeMap = true := by decide

/-- Check 1: a row that fixes a bit outside its mask, alone at fault. -/
theorem test_wf_bits_outside_mask :
    let r : OpRow := ⟨0xF000, 0x1001⟩
    r.bitsInMask = false ∧ r.fixesFamily = true ∧ r.wellFormed = false ∧ opcodeMapWellFormed [r] = false := by decide

/-- Check 2: a row that leaves a bit of the high nibble open, alone at fault. -/
theorem test_wf_family_open :
    let r : OpRow := ⟨0x7000, 0x1000⟩
    r.bitsInMask = true ∧ r.fixesFamily = false ∧ r.wellFormed = false ∧ opcodeMapWellFormed [r] = false := by decide

/-- Check 3: two rows that share the word 0x8120, each well formed alone. -/
theorem test_wf_overlap :
    let r : OpRow := ⟨0xF000, 0x8000⟩
    let q : OpRow := ⟨0xF00F, 0x8000⟩
    r.wellFormed = true ∧ q.wellFormed = true ∧ r.disjointFrom q = false ∧ opcodeMapWellFormed [r, q] = false := by decide

/-! ## Decoding: one word of every constructor, written from R93 and R96 (most are vectors of 2.1) -/

theorem test_decode_families_0_to_7 :
    decodeTableWord 16 0x00E0 = some .cls ∧ decodeTableWord 16 0x00EE = some .ret ∧
    decodeTableWord 16 0x1ABC = some (.jp 0xABC) ∧ decodeTableWord 16 0x2FED = some (.call 0xFED) ∧
    decodeTableWord 16 0x3A5C = some (.seImm 0xA 0x5C) ∧ decodeTableWord 16 0x4B6D = some (.sneImm 0xB 0x6D) ∧
    decodeTableWord 16 0x5120 = some (.seReg 1 2) ∧ decodeTableWord 16 0x6C7E = some (.ldImm 0xC 0x7E) ∧
    decodeTableWord 16 0x7D8F = some (.addImm 0xD 0x8F) := by decide

theorem test_decode_family_8 :
    decodeTableWord 16 0x8120 = some (.ldReg 1 2) ∧ decodeTableWord 16 0x8341 = some (.orReg 3 4) ∧
    decodeTableWord 16 0x8562 = some (.andReg 5 6) ∧ decodeTableWord 16 0x8783 = some (.xorReg 7 8) ∧
    decodeTableWord 16 0x8AB4 = some (.addReg 0xA 0xB) ∧ decodeTableWord 16 0x8CD5 = some (.sub 0xC 0xD) ∧
    decodeTableWord 16 0x8EF6 = some (.shr 0xE 0xF) ∧ decodeTableWord 16 0x8F17 = some (.subn 0xF 1) ∧
    decodeTableWord 16 0x812E = some (.shl 1 2) := by decide

theorem test_decode_families_9_to_E :
    decodeTableWord 16 0x9AB0 = some (.sneReg 0xA 0xB) ∧ decodeTableWord 16 0xA2F0 = some (.ldI 0x2F0) ∧
    decodeTableWord 16 0xB1FF = some (.jpV0 0x1FF) ∧ decodeTableWord 16 0xC30F = some (.rnd 3 0x0F) ∧
    decodeTableWord 16 0xD12A = some (.drw 1 2 0xA) ∧ decodeTableWord 16 0xE29E = some (.skp 2) ∧
    decodeTableWord 16 0xE3A1 = some (.sknp 3) := by decide

theorem test_decode_family_F :
    decodeTableWord 16 0xF507 = some (.ldVxDt 5) ∧ decodeTableWord 16 0xF30A = some (.ldVxK 3) ∧
    decodeTableWord 16 0xF615 = some (.ldDtVx 6) ∧ decodeTableWord 16 0xF718 = some (.ldStVx 7) ∧
    decodeTableWord 16 0xF21E = some (.addI 2) ∧ decodeTableWord 16 0xF429 = some (.ldF 4) ∧
    decodeTableWord 16 0xF333 = some (.ldB 3) ∧ decodeTableWord 16 0xF255 = some (.ldMemVx 2) ∧
    decodeTableWord 16 0xF165 = some (.ldVxMem 1) := by decide

/-- The words 2.1 lists as unknown, and too few bytes. -/
theorem test_decode_unknown :
    ([0x0000, 0x00E1, 0x00EF, 0x00FE, 0x0123, 0x01E0, 0x0FFF, 0x5121, 0x512F, 0x8128, 0x812D, 0x812F, 0x9121, 0x912E] ++
      [0xE000, 0xE09F, 0xE19D, 0xE0A0, 0xF000, 0xF001, 0xF030, 0xF056, 0xF075, 0xF0FF, 0xFFFF]).all
        (fun w => decodeTableWord 16 w == none) = true ∧
    decode [] = .error .truncated ∧ decode [0x12] = .error .truncated := by decide

/-- The encoder writes the word the spec gives (the other direction of a few rows). -/
theorem test_encode :
    encode (.drw 1 2 0xA) = 0xD12A ∧ encode (.shl 1 2) = 0x812E ∧ encode (.ldVxMem 0xF) = 0xFF65 ∧
    encode (.jpV0 0x1FF) = 0xB1FF ∧ encode (.seReg 0xF 0xF) = 0x5FF0 := by decide

/-! ## One instruction on the base state of the vectors -/

/-- The base state of 95_test_vectors.md section 0: running at 0x200. -/
def base : State := { State.reset with run := .running, pc := 0x200 }

/-- The base state with bytes from an address upward. -/
def withBytes (s : State) (a : Nat) (bytes : List Byte) : State := { s with mem := Memory.writeBytes s.mem a bytes }

/-- Registers 0 to 15 holding 0xA0 to 0xAF (vectors S5, ME24, ME25). -/
def ramp : State :=
  { base with v := #v[0xA0, 0xA1, 0xA2, 0xA3, 0xA4, 0xA5, 0xA6, 0xA7, 0xA8, 0xA9, 0xAA, 0xAB, 0xAC, 0xAD, 0xAE, 0xAF] }

/-- What a word's instruction leaves, seen through a function of the state. -/
def after {α : Type} (w : Word) (s : State) (f : State → α) : Option α :=
  match decodeWord w with
  | some i => match exec i s with
    | .next t => some (f t)
    | _ => none
  | none => none

/-- What a step leaves, seen through a function of the state. -/
def stepped {α : Type} (s : State) (f : State → α) : Option α :=
  match step s with
  | .next t => some (f t)
  | _ => none

/-- Vectors S7 and DR1. -/
theorem test_cls : after 0x00E0 (({ base with fb := 0x80000000000000000001#2048 } : State).setV 15 1)
    (fun t => (t.fb, t.getV 15, t.pc, t.events)) = some (0, 1, 0x202, [.clear]) := by decide +kernel

/-- Vector BR12. -/
theorem test_ret : after 0x00EE { base with sp := 16, stack := (base.stack.set 15 0xABC).set 14 0x222, pc := 0x300 }
    (fun t => (t.sp, t.pc, t.run)) = some (15, 0xABE, .running) := by decide

/-- Vector BR14. -/
theorem test_ret_underflow : after 0x00EE { base with stack := base.stack.set 0 0x204 }
    (fun t => (t.sp, t.pc, t.run)) = some (0, 0x200, .halted .stackUnderflow) := by decide

/-- Vector BR3. -/
theorem test_jp : after 0x1FFF base State.pc = some 0xFFF := by decide

/-- Vector BR8. -/
theorem test_call : after 0x2400 { base with sp := 15 } (fun t => (t.sp, t.stack[15], t.pc)) = some (16, 0x200, 0x400) := by
  decide

/-- Vector BR9. -/
theorem test_call_overflow : after 0x2400 { base with sp := 16 } (fun t => (t.sp, t.pc, t.run)) =
    some (16, 0x200, .halted .stackOverflow) := by decide

/-- Vectors BR18 and BR19. -/
theorem test_jpV0 : after 0xBFFF (base.setV 0 0xFF) State.pc = some 0x10FE ∧
    after 0xB1FF ((base.setV 0 1).setV 1 0x77) State.pc = some 0x200 := by decide

/-- Vectors BR20 and BR21. -/
theorem test_seImm : after 0x332A (base.setV 3 0x2A) State.pc = some 0x204 ∧
    after 0x332A (base.setV 3 0x2B) State.pc = some 0x202 := by decide

/-- Vectors BR24 and BR25. -/
theorem test_sneImm : after 0x432A (base.setV 3 0x2A) State.pc = some 0x202 ∧
    after 0x432A base State.pc = some 0x204 := by decide

/-- Vectors BR26 and BR27. -/
theorem test_seReg : after 0x5120 ((base.setV 1 7).setV 2 7) State.pc = some 0x204 ∧
    after 0x5120 ((base.setV 1 7).setV 2 8) State.pc = some 0x202 := by decide

/-- Vectors BR29 and BR30. -/
theorem test_sneReg : after 0x9120 ((base.setV 1 7).setV 2 8) State.pc = some 0x204 ∧
    after 0x9120 ((base.setV 1 7).setV 2 7) State.pc = some 0x202 := by decide

/-- Vectors AL1 and AL2. -/
theorem test_ldImm : after 0x6A2F base (fun t => (t.getV 10, t.pc)) = some (0x2F, 0x202) ∧
    after 0x6F80 base (State.getV · 15) = some 0x80 := by decide

/-- Vectors AL4 and AL5: the wrap leaves VF alone. -/
theorem test_addImm : after 0x7103 ((base.setV 1 0xFE).setV 15 1) (fun t => (t.getV 1, t.getV 15)) = some (1, 1) ∧
    after 0x71FF (base.setV 1 5) (fun t => (t.getV 1, t.getV 15)) = some (4, 0) := by decide

/-- Vectors AL8 and AL10. -/
theorem test_ldReg : after 0x8120 (base.setV 2 0x5A) (fun t => (t.getV 1, t.getV 2)) = some (0x5A, 0x5A) ∧
    after 0x8AF0 (base.setV 15 1) (State.getV · 10) = some 1 := by decide

/-- Vector AL11: VF is not cleared. -/
theorem test_orReg : after 0x8121 (((base.setV 1 0xF0).setV 2 0x0F).setV 15 1) (fun t => (t.getV 1, t.getV 15)) =
    some (0xFF, 1) := by decide

/-- Vector AL13. -/
theorem test_andReg : after 0x8122 (((base.setV 1 0xF0).setV 2 0x3C).setV 15 1) (fun t => (t.getV 1, t.getV 15)) =
    some (0x30, 1) := by decide

/-- Vector AL15. -/
theorem test_xorReg : after 0x8123 (((base.setV 1 0xF0).setV 2 0x3C).setV 15 1) (fun t => (t.getV 1, t.getV 15)) =
    some (0xCC, 1) := by decide

/-- Vectors AL17 and AL18. -/
theorem test_addReg : after 0x8124 ((base.setV 1 0xFF).setV 2 1) (fun t => (t.getV 1, t.getV 15)) = some (0, 1) ∧
    after 0x8124 (((base.setV 1 0x12).setV 2 0x34).setV 15 1) (fun t => (t.getV 1, t.getV 15)) = some (0x46, 0) := by decide

/-- Vectors AL20 and AL23: VF as destination holds the carry. -/
theorem test_addReg_vf : after 0x8F14 ((base.setV 15 0xF0).setV 1 0x20) (State.getV · 15) = some 1 ∧
    after 0x8FF4 (base.setV 15 0x80) (State.getV · 15) = some 1 := by decide

/-- Vectors AL24 and AL25. -/
theorem test_sub : after 0x8125 ((base.setV 1 0x10).setV 2 0x20) (fun t => (t.getV 1, t.getV 15)) = some (0xF0, 0) ∧
    after 0x8125 ((base.setV 1 0x20).setV 2 0x20) (fun t => (t.getV 1, t.getV 15)) = some (0, 1) := by decide

/-- Vector AL29: the subtrahend is the old VF. -/
theorem test_sub_vf : after 0x81F5 (base.setV 15 1) (fun t => (t.getV 1, t.getV 15)) = some (0xFF, 0) := by decide

/-- Vectors AL31 and AL32: `V[y]` takes no part, the shift is logical. -/
theorem test_shr : after 0x8126 (((base.setV 1 4).setV 2 0xFF).setV 15 1) (fun t => (t.getV 1, t.getV 2, t.getV 15)) =
      some (2, 0xFF, 0) ∧
    after 0x8106 (base.setV 1 0xFF) (fun t => (t.getV 1, t.getV 15)) = some (0x7F, 1) := by decide

/-- Vector AL34. -/
theorem test_shr_vf : after 0x8F06 (base.setV 15 0xFE) (State.getV · 15) = some 0 := by decide

/-- Vectors AL35 and AL36. -/
theorem test_subn : after 0x8127 ((base.setV 1 0x10).setV 2 0x20) (fun t => (t.getV 1, t.getV 15)) = some (0x10, 1) ∧
    after 0x8127 ((base.setV 1 0x20).setV 2 0x10) (fun t => (t.getV 1, t.getV 15)) = some (0xF0, 0) := by decide

/-- Vectors AL41 and AL42: VF is 1, never 0x80. -/
theorem test_shl : after 0x810E (base.setV 1 0x80) (fun t => (t.getV 1, t.getV 15)) = some (0, 1) ∧
    after 0x812E (((base.setV 1 0x40).setV 2 0xFF).setV 15 1) (fun t => (t.getV 1, t.getV 2, t.getV 15)) =
      some (0x80, 0xFF, 0) := by decide

/-- Vector AL43. -/
theorem test_shl_vf : after 0x8F0E (base.setV 15 0x81) (State.getV · 15) = some 1 := by decide

/-- The base state with a random byte of 0xB7. -/
def random : State := { base with env := { base.env with random := 0xB7 } }

/-- Vectors AL45 and AL47. -/
theorem test_rnd : after 0xC30F random (State.getV · 3) = some 7 ∧
    after 0xC300 (random.setV 3 0x55) (State.getV · 3) = some 0 := by decide

/-- Vectors ME1 and ME2. -/
theorem test_ldI : after 0xA2F0 base State.index = some 0x2F0 ∧
    after 0xA000 { base with index := 0xFFFF } State.index = some 0 := by decide

/-- Vectors ME5 and ME6. -/
theorem test_addI : after 0xF21E ({ base with index := 0xFFF }.setV 2 1) (fun t => (t.index, t.getV 15)) =
      some (0x1000, 0) ∧
    after 0xF21E ({ base with index := 0xFFFF }.setV 2 1) (fun t => (t.index, t.getV 15)) = some (0, 1) := by decide

/-- Vector ME9: the old VF is added, then VF is the flag. -/
theorem test_addI_vf : after 0xFF1E ({ base with index := 0x300 }.setV 15 1) (fun t => (t.index, t.getV 15)) =
    some (0x301, 0) := by decide

/-- Vectors ME12 and ME14. -/
theorem test_ldF : after 0xF429 (base.setV 4 0x1A) State.index = some 0x82 ∧
    after 0xF429 (base.setV 4 0xFF) State.index = some 0x9B := by decide

/-- Vectors S4, ME15 and ME19. -/
theorem test_ldB : after 0xF333 ({ base with index := 0x300 }.setV 3 0x9D)
      (fun t => (t.readByte 0x300, t.readByte 0x301, t.readByte 0x302, t.pc)) = some (1, 5, 7, 0x202) ∧
    after 0xF333 ({ base with index := 0xFFD }.setV 3 0x64) (fun t => (t.readByte 0xFFD, t.run)) =
      some (1, .running) := by decide

/-- Vectors ME20 and ME21: no byte is written, and the address does not wrap. -/
theorem test_ldB_outside : after 0xF333 ({ base with index := 0xFFE }.setV 3 0x64) (fun t => (t.mem, t.pc, t.run)) =
      some ([], 0x200, .halted .memoryOutOfBounds) ∧
    after 0xF333 ({ base with index := 0xFFFF }.setV 3 0x64) (fun t => (t.mem, t.run)) =
      some ([], .halted .memoryOutOfBounds) := by decide

/-- Vectors ME24 and ME28: up to the last byte of memory, and over the font. -/
theorem test_ldMemVx : after 0xFF55 { ramp with index := 0xFF0 }
      (fun t => (t.readByte 0xFEF, t.readByte 0xFF0, t.readByte 0xFFF, t.index)) = some (0, 0xA0, 0xAF, 0xFF0) ∧
    after 0xF055 ({ base with index := 0x50 }.setV 0 0xAA) (fun t => (t.readByte 0x50, t.readByte 0x51)) =
      some (0xAA, 0x90) := by decide

/-- Vector ME25. -/
theorem test_ldMemVx_outside : after 0xFF55 { ramp with index := 0xFF1 } (fun t => (t.mem, t.run)) =
    some ([], .halted .memoryOutOfBounds) := by decide

/-- Vectors ME29 and ME30. -/
theorem test_ldVxMem : after 0xF265 ((withBytes { base with index := 0x400 } 0x400 [0x11, 0x22, 0x33, 0x44]).setV 3 0x99)
      (fun t => (t.getV 0, t.getV 1, t.getV 2, t.getV 3, t.index)) = some (0x11, 0x22, 0x33, 0x99, 0x400) ∧
    after 0xF065 { base with index := 0x50 } (State.getV · 0) = some 0xF0 := by decide

/-- Vector ME33. -/
theorem test_ldVxMem_outside : after 0xF165 (withBytes { base with index := 0xFFF } 0xFFF [0x88])
    (fun t => (t.getV 0, t.run)) = some (0, .halted .memoryOutOfBounds) := by decide

/-- Vectors DR3 and DR5: bit 7 is the leftmost column, and columns wrap. -/
theorem test_drw : after 0xD121 (((withBytes { base with index := 0x300 } 0x300 [0x80]).setV 1 5).setV 2 3)
      (fun t => (decide (t.fb = BitVec.twoPow 2048 (5 + 64 * 3)), t.getV 15, decide (t.events = [.draw t.fb]))) =
        some (true, 0, true) ∧
    after 0xD121 ((withBytes { base with index := 0x300 } 0x300 [0xFF]).setV 1 0x3E)
      (fun t => (List.range 64).filter (cellAt t.fb)) = some [0, 1, 2, 3, 4, 5, 62, 63] := by decide +kernel

/-- Vectors DR10 and DR11: no rows cannot fault; a cell that clears is a collision. -/
theorem test_drw_flag : after 0xD120 ({ base with index := 0xFFFF }.setV 15 1) (fun t => (t.getV 15, t.run)) =
      some (0, .running) ∧
    after 0xD121 ((withBytes { base with index := 0x300, fb := 0x70#2048 } 0x300 [0xF0]).setV 1 2)
      (fun t => (t.getV 15, decide (t.fb = 0x4C#2048))) = some (1, true) := by decide +kernel

/-- The base state with key 5 held. -/
def held : State := { base with env := { base.env with held := [0x05] } }

/-- Vectors KY1 and KY2; KY4: the whole code is asked for, not its low nibble. -/
theorem test_skp : after 0xE29E (held.setV 2 5) State.pc = some 0x204 ∧
    after 0xE29E (base.setV 2 5) State.pc = some 0x202 ∧ after 0xE29E (held.setV 2 0x15) State.pc = some 0x202 := by decide

/-- Vectors KY5 and KY6. -/
theorem test_sknp : after 0xE2A1 (base.setV 2 5) State.pc = some 0x204 ∧
    after 0xE2A1 (held.setV 2 5) State.pc = some 0x202 := by decide

/-- Vectors KY7 and K11: a press completes the instruction, and none leaves it suspended. -/
theorem test_ldVxK : after 0xF30A { base with env := { base.env with keyPress := some 0xB } }
      (fun t => (t.getV 3, t.pc, t.awaitingKey)) = some (0x0B, 0x202, false) ∧
    after 0xF30A base (fun t => (t.getV 3, t.pc, t.run, t.awaitingKey)) = some (0, 0x200, .running, true) := by decide

/-- The base state with distinct delay and sound counts. -/
def timers : State := { base with dt := { count := 0x2C, last := 0 }, st := { count := 9, last := 0 } }

/-- Vectors KY12 and KY15: the delay timer is read, not the sound timer. -/
theorem test_ldVxDt : after 0xF507 timers (fun t => (t.getV 5, t.dt.count)) = some (0x2C, 0x2C) := by decide

/-- Vector KY18. -/
theorem test_ldDtVx : after 0xF515 (timers.setV 5 0x3C) (fun t => (t.dt.count, t.st.count, t.pc)) =
    some (0x3C, 9, 0x202) := by decide

/-- Vector KY20. -/
theorem test_ldStVx : after 0xF518 (timers.setV 5 0xFF) (fun t => (t.dt.count, t.st.count, t.pc)) =
    some (0x2C, 0xFF, 0x202) := by decide

/-! ## Steps, ticks and the host's ports -/

/-- Vector FE1: the byte at the lower address is the high byte. -/
theorem test_fetch_order : stepped (withBytes base 0x200 [0x12, 0x34]) State.pc = some 0x234 := by decide +kernel

/-- Vectors FE4 and F6: the last address a word can be fetched from, and the one after it. -/
theorem test_fetch_bounds : stepped (withBytes { base with pc := 0xFFE } 0xFFE [0x61, 0x77])
      (fun t => (t.getV 1, t.pc, t.run)) = some (0x77, 0x1000, .running) ∧
    stepped { base with pc := 0xFFF } (fun t => (t.pc, t.run)) = some (0xFFF, .halted .fetchOutOfBounds) := by decide +kernel

/-- Vectors FT1, FT2 and FT3. -/
theorem test_run_states : stepped State.reset (fun t => (t.pc, t.run)) = some (0, .halted .missingRom) ∧
    stepped { withBytes base 0x200 [0x60, 0x11] with run := .halted .unknownOpcode } (fun t => (t.getV 0, t.pc, t.run)) =
      some (0, 0x200, .halted .unknownOpcode) ∧
    stepped { withBytes base 0x200 [0x60, 0x11] with run := .ready } (fun t => (t.getV 0, t.pc, t.run)) =
      some (0x11, 0x202, .running) := by decide +kernel

/-- Vectors FE8 and FT5: zeros are no instruction, and decoding comes before the check of the stack. -/
theorem test_unknown_step : stepped base (fun t => (t.pc, t.run)) = some (0x200, .halted .unknownOpcode) ∧
    stepped (withBytes { base with sp := 16 } 0x200 [0x51, 0x21]) (fun t => (t.sp, t.run)) =
      some (16, .halted .unknownOpcode) := by decide +kernel

/-- Vectors TM1 to TM3: no decrement before a period, one at exactly a period or later. -/
theorem test_tick : (Timer.tick ⟨3, 0⟩ (50 / 3) 16).count = 3 ∧ Timer.tick ⟨3, 0⟩ (50 / 3) 18 = ⟨2, 18⟩ ∧
    Timer.tick ⟨2, 0⟩ (50 / 3) (50 / 3) = ⟨1, 50 / 3⟩ ∧ Timer.tick ⟨3, 0⟩ (50 / 3) 100 = ⟨2, 100⟩ ∧
    Timer.tick ⟨0, 0⟩ (50 / 3) 100 = ⟨0, 0⟩ := by decide +kernel

/-- Vector S14: 2000 microseconds at 500 Hz; at 60 Hz 16666, or 50000/3. -/
theorem test_pace_interval : paceInterval false 500 = 2 ∧ paceInterval true 60 = 16666 / 1000 ∧
    paceInterval false 60 = 50 / 3 := by decide +kernel

/-- R283: a load writes from 0x200, sets `pc` and `RUN`, and leaves the font. -/
theorem test_load : ((State.reset.load [0x12, 0x34] 7).toOption.map
      (fun t => (t.readByte 0x200, t.readByte 0x201, t.readByte 0x50, t.pc, t.run))) =
    some (0x12, 0x34, 0xF0, 0x200, .ready) := by decide +kernel

/-- R284: an empty image, one of 3585 bytes and a second load are load errors. -/
theorem test_load_errors : State.reset.load [] 0 = .error .emptyImage ∧
    State.reset.load (List.replicate 3585 1) 0 = .error .tooLarge ∧ base.load [1] 0 = .error .notUninitialized := by
  decide +kernel

/-- R30: the first and the last glyph, and the bytes beside the font. -/
theorem test_font : (List.range 7).map (fun k => State.reset.readByte (0x04F + k)) = [0, 0xF0, 0x90, 0x90, 0x90, 0xF0, 0x20] ∧
    (List.range 6).map (fun k => State.reset.readByte (0x09B + k)) = [0xF0, 0x80, 0xF0, 0x80, 0x80, 0] := by decide

/-- The host's placement: the next step runs exactly the word placed, after reset and at a running state's own `pc`. -/
theorem test_withFetchWord : stepped (State.reset.withFetchWord 16 0x6A2F) (fun t => (t.getV 10, t.pc)) = some (0x2F, 0x202) ∧
    stepped ({ base with pc := 0x301 }.withFetchWord 16 0x6A2F) (fun t => (t.getV 10, t.pc)) = some (0x2F, 0x303) := by
  decide +kernel

/-! ## Witnesses: the hypotheses of each statement are met, clause by clause, at the ends of their ranges -/

/-- EncodeInvertsDecode, and the three clauses of DecodeFollowsOpcodeMap. -/
theorem witness_decode : decodeWord 0xD12A = some (.drw 1 2 0xA) ∧ decodeWord 0x5121 = none ∧
    (∃ r ∈ opcodeMap, r.matchesWord 0x8AB4 = true) ∧ ∀ r ∈ opcodeMap, r.matchesWord 0x5121 = false := by decide

/-- UnknownOpcodesHalt: each family's unlisted words, and a running state that fetches one. -/
theorem witness_unknown : [0x00EF, 0x5121, 0x912F, 0x8128, 0x812F, 0xE09F, 0xF066].map decodeWord =
      [none, none, none, none, none, none, none] ∧
    base.run = .running ∧ (withBytes base 0x200 [0x51, 0x21]).fetch = .ok 0x5121 := by decide

/-- StepRunsDecodedInstruction, at the highest address a word can be fetched from. -/
theorem witness_step_runs :
    let s := withBytes { base with pc := 0xFFE, run := .ready } 0xFFE [0x61, 0x77]
    s.run = .ready ∧ s.pc.toNat + 1 ≤ 0xFFF ∧
      decode [s.readByte s.pc.toNat, s.readByte (s.pc.toNat + 1)] = .ok (.ldImm 1 0x77, []) := by decide

/-- CycleEndsWithPaceAndTick, StepBeforeLoadHalts and HaltedIsTerminal: the run states they speak of. -/
theorem witness_run_states : base.run = .running ∧ base.awaitingKey = false ∧ State.reset.run = .uninitialized ∧
    ({ base with run := .halted .stackOverflow } : State).run = .halted .stackOverflow ∧
    ({ base with awaitingKey := true } : State).awaitingKey = true := by decide

/-- FetchReadsBigEndianWord: both clauses where they meet. -/
theorem witness_fetch : ({ base with pc := 0xFFE } : State).pc.toNat ≤ 0xFFE ∧
    0xFFF ≤ ({ base with pc := 0xFFF } : State).pc.toNat ∧ ({ base with pc := 0xFFF } : State).run = .running := by decide

/-- RunStateTransitions: a step answers from each run state. -/
theorem witness_transitions : (∃ t, step State.reset = .next t) ∧ (∃ t, step base = .next t) ∧
    (∃ t, step { base with run := .ready } = .next t) ∧
    step { base with run := .halted .missingRom } = .next { base with run := .halted .missingRom } :=
  ⟨⟨_, rfl⟩, ⟨_, rfl⟩, ⟨_, rfl⟩, rfl⟩

/-- CallPushesItsAddress at both ends, and CallReturnRoundTrip with the state right after the call. -/
theorem witness_call : base.sp.val < 16 ∧ ({ base with sp := 15 } : State).sp.val < 16 ∧
    (∃ t, exec (.call 0x400) { base with sp := 15 } = .next t ∧ t.sp = 16) := by
  refine ⟨by decide, by decide, _, rfl, by decide⟩

/-- ReturnPopsAndAdvances at both ends. -/
theorem witness_return : ({ base with sp := 1 } : State).sp.val = (0 : Fin 16).val + 1 ∧
    ({ base with sp := 16 } : State).sp.val = (15 : Fin 16).val + 1 := by decide

/-- BcdStoresDigits: both clauses where they meet. -/
theorem witness_bcd : Memory.WF base.mem ∧ ({ base with index := 0xFFD } : State).index.toNat ≤ 0xFFD ∧
    0xFFD < ({ base with index := 0xFFE } : State).index.toNat := by decide

/-- DumpStoresRegisters and LoadReadsRegisters: both clauses where they meet, for one register and for sixteen. -/
theorem witness_dump_load : Memory.WF base.mem ∧
    ({ base with index := 0xFFF } : State).index.toNat + (0 : Nibble).toNat ≤ 0xFFF ∧
    ({ base with index := 0xFF0 } : State).index.toNat + (15 : Nibble).toNat ≤ 0xFFF ∧
    0xFFF < ({ base with index := 0x1000 } : State).index.toNat + (0 : Nibble).toNat ∧
    0xFFF < ({ base with index := 0xFF1 } : State).index.toNat + (15 : Nibble).toNat := by decide

/-- DumpLoadRoundTrip: the registers dumped, then a zeroed register file over the memory the dump left (vector S5). -/
theorem witness_round_trip :
    ∃ t, exec (.ldMemVx 7) { ramp with index := 0x400 } = .next t ∧ Memory.WF t.mem ∧
      ∃ u : State, u.mem = t.mem ∧ u.index = t.index ∧ ∀ r, u.getV r = 0 :=
  ⟨_, rfl, by decide, { ramp with index := 0x400, mem := _, v := Vector.replicate 16 0 }, rfl, by decide, by decide⟩

/-- StoreSeenByNextFetch: program P9 at its fourth cycle. -/
theorem witness_store_fetch :
    let s := { ((base.setV 0 0x12).setV 1 0x08) with pc := 0x206, index := 0x208 }
    Memory.WF s.mem ∧ s.index.toNat + (1 : Nibble).toNat ≤ 0xFFF ∧ (0 : Nibble).toNat + 1 ≤ (1 : Nibble).toNat ∧
      s.pc.toNat + 2 = s.index.toNat + (0 : Nibble).toNat ∧ after 0xF155 s State.pc = some 0x208 := by decide

/-- DrawTogglesCoveredCells and DrawOutsideMemoryHalts: no rows anywhere, the last row on 0xFFF, and one beyond it. -/
theorem witness_draw : ((0 : Nibble) = 0 ∨ ({ base with index := 0xFFFF } : State).index.toNat + 0 ≤ 0x1000) ∧
    ({ base with index := 0xFFB } : State).index.toNat + (5 : Nibble).toNat ≤ 0x1000 ∧ 0 < (5 : Nibble).toNat ∧
    0xFFF < ({ base with index := 0xFFC } : State).index.toNat + (5 : Nibble).toNat - 1 := by decide

/-- DrawTwiceRestoresFramebuffer: the glyph of 0 drawn on a clear framebuffer leaves a state that draws it again. -/
theorem witness_draw_twice :
    let s := { base with index := 0x50 }
    after 0xD015 s (fun t => (decide (t.mem = s.mem), t.index, t.getV 0, t.getV 1)) =
        some (true, s.index, s.getV 0, s.getV 1) ∧
      after 0xD015 s (fun t => after 0xD015 t State.run) = some (some .running) := by decide +kernel

/-- DrawTwiceRestoresFramebuffer: that framebuffer is clear. -/
theorem witness_clear_frame (k : Nat) : cellAt { base with index := 0x50 }.fb k = false := BitVec.getLsbD_zero

/-- KeyWaitCompletesOnPress: a press of the first and of the last key, and no press. -/
theorem witness_key_wait :
    ({ base with env := { base.env with keyPress := some 0 } } : State).env.keyPress = some 0 ∧
    ({ base with env := { base.env with keyPress := some 15 } } : State).env.keyPress = some 15 ∧
    base.env.keyPress = none := by decide

/-- TimerReadAndStart, TimerOperations and PacerKeepsInterval: readings at and after the clock, and a cycle that ran long. -/
theorem witness_clock :
    let s := { base with env := { base.env with execTime := 5, tickTime := 9, paceTime := 8, recordTime := 8 } }
    base.now ≤ base.env.execTime ∧ s.now ≤ s.env.execTime ∧ s.now ≤ s.env.tickTime ∧ s.now ≤ s.env.paceTime ∧
      (1000 : ℚ) / (s.clockSpeed : ℚ) ≤ s.env.paceTime - s.paceLast ∧ s.env.recordTime ≤ s.env.paceTime ∧
      s.params.paceTruncated = false := by decide +kernel

/-- TimerOperations: a tick that decrements, one too early and one of an idle timer. -/
theorem witness_tick : ((⟨3, 0⟩ : Timer).count ≠ 0 ∧ (50 / 3 : ℚ) - (⟨3, 0⟩ : Timer).last ≥ 50 / 3) ∧
    ¬((⟨3, 0⟩ : Timer).count ≠ 0 ∧ (16 : ℚ) - (⟨3, 0⟩ : Timer).last ≥ 50 / 3) ∧
    ¬((⟨0, 0⟩ : Timer).count ≠ 0 ∧ (100 : ℚ) - (⟨0, 0⟩ : Timer).last ≥ 50 / 3) := by decide +kernel

/-- TimerCountsDownToZero: a simulated 60 Hz (vector S10). -/
theorem witness_countdown : ∀ k : Nat, (50 / 3 : ℚ) ≤ ((k + 1 : Nat) : ℚ) * (50 / 3) - (k : ℚ) * (50 / 3) := by
  intro k; push_cast; linarith

/-- FatalErrorsOfInstructions and FatalErrorChangesOnlyRun: each tag an instruction can raise, from a running state. -/
theorem witness_fatal : base.run = .running ∧ after 0x2400 { base with sp := 16 } State.run = some (.halted .stackOverflow) ∧
    after 0x00EE base State.run = some (.halted .stackUnderflow) ∧
    after 0xF333 { base with index := 0xFFE } State.run = some (.halted .memoryOutOfBounds) ∧
    after 0xF155 { base with index := 0xFFF } State.run = some (.halted .memoryOutOfBounds) ∧
    after 0xF165 { base with index := 0xFFF } State.run = some (.halted .memoryOutOfBounds) ∧
    after 0xD121 { base with index := 0x1000 } State.run = some (.halted .memoryOutOfBounds) ∧
    after 0x6A2F base State.run = some .running := by decide

/-- RegistersFrame: a register that is neither destination nor flag, and one above those `FX65` loads. -/
theorem witness_registers_frame : (∃ t, exec (.addReg 1 2) base = .next t) ∧ (Instr.addReg 1 2).destination ≠ some 3 ∧
    ((Instr.addReg 1 2).setsFlag = true → (3 : Nibble) ≠ 15) ∧ (∃ t, exec (.ldVxMem 14) base = .next t) ∧
    (14 : Nibble).toNat < (15 : Nibble).toNat :=
  ⟨⟨_, rfl⟩, by decide, by decide, ⟨_, rfl⟩, by decide⟩

/-- FlagIsZeroOrOne: a flag-setting instruction that completes. -/
theorem witness_flag : (Instr.drw 1 2 0).setsFlag = true ∧ base.run = .running ∧
    after 0xD120 base State.run = some .running := by decide

/-- IndexFrame, StackFrame, FramebufferFrame, ControlStateFrame, TimingStateIsInvisible: an instruction that answers and is
none of those they except. -/
theorem witness_frames : (∃ t, exec (.ldImm 1 2) base = .next t) ∧ (∀ nnn, Instr.ldImm 1 2 ≠ .ldI nnn) ∧
    (∀ x, Instr.ldImm 1 2 ≠ .addI x) ∧ (∀ x, Instr.ldImm 1 2 ≠ .ldF x) ∧ (∀ nnn, Instr.ldImm 1 2 ≠ .call nnn) ∧
    Instr.ldImm 1 2 ≠ .ret ∧ Instr.ldImm 1 2 ≠ .cls ∧ (∀ x y n, Instr.ldImm 1 2 ≠ .drw x y n) ∧
    (∀ x, Instr.ldImm 1 2 ≠ .ldDtVx x) ∧ ∀ x, Instr.ldImm 1 2 ≠ .ldStVx x :=
  ⟨⟨_, rfl⟩, nofun, nofun, nofun, nofun, nofun, nofun, nofun, nofun, nofun⟩

/-- MemoryFrame: the byte below and the byte above those `FX33` and `FX55` store. -/
theorem witness_memory_frame : (∃ t, exec (.ldB 3) { base with index := 0x300 } = .next t) ∧
    0x2FF < ({ base with index := 0x300 } : State).baseAddress ∧
    ({ base with index := 0x300 } : State).baseAddress + (Instr.ldB 3).storedBytes ≤ 0x303 ∧
    (∃ t, exec (.ldMemVx 2) { base with index := 0x300 } = .next t) ∧
    ({ base with index := 0x300 } : State).baseAddress + (Instr.ldMemVx 2).storedBytes ≤ 0x303 :=
  ⟨⟨_, rfl⟩, by decide, by decide, ⟨_, rfl⟩, by decide⟩

/-- DeadSlotsAreNeverRead: two stacks that agree below `SP` and differ at it. -/
theorem witness_dead_slots :
    let s := { base with sp := 1 }
    (∃ t, exec .ret s = .next t) ∧ (∀ k : Fin 16, k.val < s.sp.val → (s.stack.set 1 0xABC)[k] = s.stack[k]) ∧
      s.stack.set 1 0xABC ≠ s.stack :=
  ⟨⟨_, rfl⟩, by decide, by decide⟩

/-- LoadedStateIsReady, LoadAcceptsImagesThatFit: the smallest image and the largest, at a reading no earlier than the clock,
into a memory in canonical form. -/
theorem witness_load : defaultFont.length = 80 ∧ ([0x12] : List Byte) ≠ [] ∧
    (List.replicate 3584 (1 : Byte)).length ≤ Config.params.romMax ∧ Memory.WF State.reset.mem ∧
    State.reset.now ≤ 7 ∧ (∃ t, State.reset.load [0x12] 7 = .ok t) ∧
    ∃ t, State.reset.load (List.replicate 3584 1) 7 = .ok t := by
  refine ⟨by decide, by decide, by rw [List.length_replicate]; decide, by decide, by decide +kernel, ⟨_, rfl⟩, ?_⟩
  unfold State.load
  rw [if_neg (by decide), if_neg (fun h => absurd (congrArg List.length h) (by rw [List.length_replicate]; decide)),
    if_neg (by rw [List.length_replicate]; decide)]
  exact ⟨_, rfl⟩

/-- R283: with `ROM_MAX` 3072, the other cap the source names, an image of 3073 bytes is refused. -/
theorem test_load_cap_3072 :
    (State.initial defaultFont { Config.params with romMaxLessOne := 3071 } 500).load (List.replicate 3073 1) 0 =
      .error .tooLarge := by
  unfold State.load
  rw [if_neg (by decide), if_neg (fun h => absurd (congrArg List.length h) (by rw [List.length_replicate]; decide)),
    if_pos (by rw [List.length_replicate]; decide)]

/-- R261, R289: a rate of 0 stores 500 between cycles; inside a cycle suspended in `FX0A` no setting is taken. Both cases of
ClockSettingNormalizesZero. -/
theorem test_setClockSpeed :
    State.reset.awaitingKey = false ∧ (State.reset.setClockSpeed 0).map (·.clockSpeed) = some 500 ∧
    ({ State.reset with awaitingKey := true } : State).setClockSpeed 60 = none := by decide

/-- StepKeepsInvariant and ReachableStatesHaveInvariant: a state that meets the invariant and steps, and one reached. -/
theorem witness_invariant : base.Inv ∧ (∃ t, step base = .next t) ∧
    Reachable (State.initial defaultFont Config.params 500) :=
  ⟨⟨by decide, by decide, by decide, by decide, by decide +kernel, by decide +kernel, by decide +kernel⟩, ⟨_, rfl⟩,
    .created _ _ _⟩

end Sys2Proof.Tests
end

section
/-! What any instruction can do to the state, said once: every frame and the invariant's step are read off this list. -/

namespace Sys2Proof.Machine

/-- `Effect s i t`: `t` is an outcome of `i` on `s`, one constructor per way an instruction acts on the state. -/
inductive Effect (s : State) : Instr → State → Prop where
  /-- A result in the destination register (R151 to R156, R162, R224). -/
  | result {i : Instr} {x : Nibble} {b : Byte} (hd : i.destination = some x) (hf : i.setsFlag = false) :
      Effect s i (s.finish x b)
  /-- A result, then a flag (R157 to R161). -/
  | resultAndFlag {i : Instr} {x : Nibble} {b : Byte} {c : Bool} (hd : i.destination = some x)
      (hf : i.setsFlag = true) : Effect s i (s.finishFlag x b (flagOf c))
  /-- A conditional skip (R125 to R128, R221, R222). -/
  | skip {i : Instr} {c : Bool} (hf : i.setsFlag = false) : Effect s i (s.skipIf c)
  /-- A jump, which goes no higher than `0x0FF + 0xFFF` (R123, R124). -/
  | jump {i : Instr} {a : Word} (ha : a.toNat ≤ 0x10FE) (hf : i.setsFlag = false) : Effect s i (s.jump a)
  /-- A return (R121). -/
  | ret (hs : 0 < s.sp.val) :
      Effect s .ret { s with pc := s.stack[s.sp.val - 1]'(by omega) + 2, sp := ⟨s.sp.val - 1, by omega⟩ }
  /-- A call (R122). -/
  | call {nnn : Addr} (hs : s.sp.val < 16) :
      Effect s (.call nnn)
        { s with pc := zextAddr nnn, stack := s.stack.set s.sp.val s.pc hs, sp := ⟨s.sp.val + 1, by omega⟩ }
  /-- `I` loaded with an address (R181). -/
  | indexAddress {nnn : Addr} {a : Word} : Effect s (.ldI nnn) (s.setIndex a).advance
  /-- `I` loaded with a glyph's address (R183). -/
  | indexGlyph {x : Nibble} {a : Word} : Effect s (.ldF x) (s.setIndex a).advance
  /-- `I` increased, and the overflow flag (R182). -/
  | indexSum {x : Nibble} {a : Word} {c : Bool} : Effect s (.addI x) ((s.setIndex a).setFlag (flagOf c)).advance
  /-- Bytes stored, which keeps the canonical form of memory (R184, R185). -/
  | stored {i : Instr} {m : List Host.Cell} (hm : Memory.WF s.mem → Memory.WF m) (hf : i.setsFlag = false) :
      Effect s i { s with mem := m, pc := s.pc + 2 }
  /-- Registers loaded from memory (R186). -/
  | loaded {x : Nibble} :
      Effect s (.ldVxMem x) { s with v := (s.loadRegs s.baseAddress (regCount x)).v, pc := s.pc + 2 }
  /-- The framebuffer cleared (R201). -/
  | cleared : Effect s .cls ({ s with fb := 0#2048 }.signal .clear).advance
  /-- A sprite drawn (R202). -/
  | drawn {x y n : Nibble} {p : Canvas} : Effect s (.drw x y n) (s.show p).advance
  /-- A key observed (R223). -/
  | keyObserved {x : Nibble} {b : Byte} : Effect s (.ldVxK x) { s.finish x b with awaitingKey := false }
  /-- No key yet: the instruction stays suspended (R223). -/
  | keyAwaited {x : Nibble} : Effect s (.ldVxK x) { s with awaitingKey := true }
  /-- The delay timer started (R225). -/
  | delayStarted {x : Nibble} {b : Byte} {r : Instant} :
      Effect s (.ldDtVx x) { s.readClock r with dt := Timer.start b (laterOf s.now r) }.advance
  /-- The sound timer started (R226). -/
  | soundStarted {x : Nibble} {b : Byte} {r : Instant} :
      Effect s (.ldStVx x) { s.readClock r with st := Timer.start b (laterOf s.now r) }.advance
  /-- A fatal error (R247). -/
  | fatal {i : Instr} {g : FatalTag} : Effect s i (s.raiseFatal g)

theorem zextAddr_toNat (nnn : Addr) : (zextAddr nnn).toNat = nnn.toNat := by
  rw [zextAddr, BitVec.toNat_setWidth_of_le (by omega)]

theorem zextByte_toNat (b : Byte) : (zextByte b).toNat = b.toNat := by
  rw [zextByte, BitVec.toNat_setWidth_of_le (by omega)]

/-- No address operand lies above `0xFFF` (R94). -/
theorem zextAddr_le (nnn : Addr) : (zextAddr nnn).toNat ≤ 0xFFF := by
  rw [zextAddr_toNat]; omega

/-- A jump with offset does not wrap and goes no higher than `0x10FE` (R29, R123). -/
theorem jpV0_target_le (b : Byte) (nnn : Addr) : (zextByte b + zextAddr nnn).toNat ≤ 0x10FE := by
  have hb : (zextByte b).toNat ≤ 0xFF := by rw [zextByte_toNat]; omega
  have ha := zextAddr_le nnn
  rw [BitVec.toNat_add]
  omega

/-- What an instruction with a next state has done to the state. -/
theorem exec_effect {i : Instr} {s t : State} (h : exec i s = .next t) : Effect s i t := by
  cases i with
  | ldImm | addImm | ldReg | orReg | andReg | xorReg | rnd | ldVxDt => cases h; exact .result rfl rfl
  | addReg | sub | shr | subn | shl => cases h; exact .resultAndFlag rfl rfl
  | seImm | sneImm | seReg | sneReg | skp | sknp => cases h; exact .skip rfl
  | jp nnn => cases h; exact .jump ((zextAddr_le nnn).trans (by decide)) rfl
  | jpV0 nnn => cases h; exact .jump (jpV0_target_le _ nnn) rfl
  | ret =>
    obtain ⟨hs, rfl⟩ | ⟨-, rfl⟩ := exec_ret_cases h
    · exact .ret hs
    · exact .fatal
  | call nnn =>
    obtain ⟨hs, rfl⟩ | ⟨-, rfl⟩ := exec_call_cases h
    · exact .call hs
    · exact .fatal
  | ldI => cases h; exact .indexAddress
  | ldF => cases h; exact .indexGlyph
  | addI => cases h; exact .indexSum
  | ldB x =>
    obtain ⟨hb, rfl⟩ | ⟨-, rfl⟩ := exec_ldB_cases h
    · exact .stored (fun hm => Memory.wf_writeBytes _ _ _ hm
        (by simp only [State.baseAddress, bcdDigits, topAddress, List.length_cons, List.length_nil]; omega)) rfl
    · exact .fatal
  | ldMemVx x =>
    obtain ⟨hb, rfl⟩ | ⟨-, rfl⟩ := exec_ldMemVx_cases h
    · exact .stored (fun hm => State.wf_storeRegs _ _ _ hm
        (by simp only [State.baseAddress, regCount, topAddress]; omega)) rfl
    · exact .fatal
  | ldVxMem x =>
    obtain ⟨-, rfl⟩ | ⟨-, rfl⟩ := exec_ldVxMem_cases h
    · exact .loaded
    · exact .fatal
  | cls => cases h; exact .cleared
  | drw x y n =>
    obtain ⟨-, rfl⟩ | ⟨-, rfl⟩ := exec_drw_cases h
    · exact .drawn
    · exact .fatal
  | ldVxK x =>
    obtain ⟨k, -, rfl⟩ | ⟨-, rfl⟩ := exec_ldVxK_cases h
    · exact .keyObserved
    · exact .keyAwaited
  | ldDtVx => cases h; exact .delayStarted
  | ldStVx => cases h; exact .soundStarted

end Sys2Proof.Machine
end

section
/-! What no instruction writes but those the rules name (10_state.md R22 to R38). -/

namespace Sys2Proof.Machine

theorem flagOf_eq_zero_or_one (c : Bool) : flagOf c = 0 ∨ flagOf c = 1 := by
  cases c
  · exact .inl rfl
  · exact .inr rfl

/-- `FX65` with operand `x` leaves the registers above `x` alone (R186). -/
theorem State.getV_loadRegs_above (s : State) (base : Nat) {x r : Nibble} (h : x.toNat < r.toNat) :
    (s.loadRegs base (regCount x)).getV r = s.getV r := by
  rw [State.getV_loadRegs s base (regCount x) r x.isLt, if_neg]
  unfold regCount
  omega

/-- Settles O45: register by register, for each effect an instruction can have. -/
theorem registersFrame : Obligations.RegistersFrame := by
  intro i s t r h hdest hflag hload
  cases exec_effect h with
  | result hd _ =>
    rw [State.getV_finish, if_neg]
    rintro rfl; exact hdest hd
  | resultAndFlag hd hf =>
    rw [State.getV_finishFlag, if_neg (hflag hf), if_neg]
    rintro rfl; exact hdest hd
  | indexSum => rw [State.getV_advance, State.getV_setFlag, if_neg (hflag rfl), State.getV_setIndex]
  | loaded => exact State.getV_loadRegs_above s _ (hload _ rfl)
  | drawn => rw [State.getV_advance, State.getV_show, if_neg (hflag rfl)]
  | @keyObserved x b =>
    show (s.finish x b).getV r = s.getV r
    rw [State.getV_finish, if_neg]
    rintro rfl; exact hdest rfl
  | skip | jump | ret | call | indexAddress | indexGlyph | stored | cleared | keyAwaited | delayStarted
  | soundStarted | fatal => rfl

/-- Settles O46: a flag is written last, and every flag is 0 or 1; the other outcome is a halt. -/
theorem flagIsZeroOrOne : Obligations.FlagIsZeroOrOne := by
  intro i s t hflag _ h hrun
  cases exec_effect h with
  | @resultAndFlag _ x b c _ _ =>
    rw [State.getV_finishFlag, if_pos rfl]
    exact flagOf_eq_zero_or_one c
  | @indexSum _ _ c =>
    rw [State.getV_advance, State.getV_setFlag, if_pos rfl]
    exact flagOf_eq_zero_or_one c
  | @drawn _ _ _ p =>
    rw [State.getV_advance, State.getV_show, if_pos rfl]
    exact flagOf_eq_zero_or_one p.hit
  | result _ hf | skip hf | jump _ hf | stored _ hf => rw [hf] at hflag; cases hflag
  | ret | call | indexAddress | indexGlyph | loaded | cleared | keyObserved | keyAwaited | delayStarted
  | soundStarted => cases hflag
  | fatal => cases hrun

/-- Settles O47: every effect but the three on `I` keeps it. -/
theorem indexFrame : Obligations.IndexFrame := by
  intro i s t h hldI haddI hldF
  cases exec_effect h with
  | indexAddress => exact absurd rfl (hldI _)
  | indexSum => exact absurd rfl (haddI _)
  | indexGlyph => exact absurd rfl (hldF _)
  | result | resultAndFlag | skip | jump | ret | call | stored | loaded | cleared | drawn | keyObserved | keyAwaited
  | delayStarted | soundStarted | fatal => rfl

/-- Settles O48: every effect but a call's and a return's keeps the stack; a call writes the slot at `SP`. -/
theorem stackFrame : Obligations.StackFrame := by
  intro i s t h
  cases exec_effect h with
  | ret => exact ⟨fun _ hret => absurd rfl hret, fun _ => rfl, fun _ _ => rfl⟩
  | call hs =>
    exact ⟨fun hcall => absurd rfl (hcall _), fun hcall => absurd rfl (hcall _),
      fun k hk => Vector.getElem_set_ne hs k.isLt hk.symm⟩
  | result | resultAndFlag | skip | jump | indexAddress | indexGlyph | indexSum | stored | loaded | cleared | drawn
  | keyObserved | keyAwaited | delayStarted | soundStarted | fatal =>
    exact ⟨fun _ _ => rfl, fun _ => rfl, fun _ _ => rfl⟩

/-- Settles O50: every effect but a clear and a draw keeps the framebuffer and the record of Display calls. -/
theorem framebufferFrame : Obligations.FramebufferFrame := by
  intro i s t h hcls hdrw
  cases exec_effect h with
  | cleared => exact absurd rfl hcls
  | drawn => exact absurd rfl (hdrw _ _ _)
  | result | resultAndFlag | skip | jump | ret | call | indexAddress | indexGlyph | indexSum | stored | loaded
  | keyObserved | keyAwaited | delayStarted | soundStarted | fatal => exact ⟨rfl, rfl⟩

/-- Settles O51: every effect but the start of a timer keeps the timers and the clock, and none touches the rest. -/
theorem controlStateFrame : Obligations.ControlStateFrame := by
  intro i s t h
  cases exec_effect h with
  | delayStarted =>
    exact ⟨rfl, rfl, rfl, rfl, rfl, fun hdt => absurd rfl (hdt _), fun _ => rfl, fun hdt => absurd rfl (hdt _)⟩
  | soundStarted =>
    exact ⟨rfl, rfl, rfl, rfl, rfl, fun _ => rfl, fun hst => absurd rfl (hst _), fun _ hst => absurd rfl (hst _)⟩
  | result | resultAndFlag | skip | jump | ret | call | indexAddress | indexGlyph | indexSum | stored | loaded | cleared
  | drawn | keyObserved | keyAwaited | fatal =>
    exact ⟨rfl, rfl, rfl, rfl, rfl, fun _ => rfl, fun _ => rfl, fun _ _ => rfl⟩

end Sys2Proof.Machine
end

section
/-! The invariant: it holds after creation, and every step and every port of the host keeps it (10_state.md R29, R40). -/

namespace Sys2Proof.Machine

/-- After a fetch, going on by 2 or skipping by 4 stays far below the wrap (R29). -/
theorem pc_add_toNat {a d : Word} (ha : a.toNat ≤ 0xFFE) (hd : d.toNat ≤ 4) : (a + d).toNat ≤ 0x10FE := by
  rw [BitVec.toNat_add]
  omega

/-- A fatal error keeps the invariant: it changes `RUN` alone (R247). -/
theorem State.Inv.raiseFatal {s : State} (hi : s.Inv) (g : FatalTag) : (s.raiseFatal g).Inv := { hi with }

/-- Beginning a cycle keeps the invariant: a clock speed it stores is positive (R261, R295). -/
theorem State.Inv.beginCycle {s : State} (hi : s.Inv) : s.beginCycle.Inv :=
  { hi with
    clockPositive := by
      obtain hc | ⟨hz, hc⟩ := s.beginCycle_clockSpeed_cases
      · rw [hc]; exact hi.clockPositive
      · rw [hc]; exact clockSetting_pos hz }

/-- A live address after a call is the call's own, which was fetched from, or was live before it (R29, R122). -/
theorem State.Inv.stackBound_call {s : State} (hi : s.Inv) (hpc : s.pc.toNat ≤ 0xFFE) (hs : s.sp.val < 16) (k : Fin 16)
    (hk : k.val < s.sp.val + 1) : ((s.stack.set s.sp.val s.pc hs)[k.val]'k.isLt).toNat ≤ 0xFFE := by
  by_cases hkey : s.sp.val = k.val
  · rw [Vector.getElem_set, if_pos hkey]; exact hpc
  · rw [Vector.getElem_set, if_neg hkey]; exact hi.stackBound k (by omega)

/-- Every instruction that has been fetched keeps the invariant. -/
theorem State.Inv.effect {s t : State} {i : Instr} (hi : s.Inv) (hpc : s.pc.toNat ≤ 0xFFE) (he : Effect s i t) :
    t.Inv := by
  have hnext : (s.pc + 2).toNat ≤ 0x10FE := pc_add_toNat hpc (by decide)
  cases he with
  | result | resultAndFlag | indexAddress | indexGlyph | indexSum | loaded | cleared | drawn | keyObserved =>
    exact { hi with pcBound := hnext }
  | skip => exact { hi with pcBound := pc_add_toNat hpc (by split <;> decide) }
  | jump ha => exact { hi with pcBound := ha }
  | ret hs =>
    have hlive := hi.stackBound ⟨s.sp.val - 1, by omega⟩ (by show s.sp.val - 1 < s.sp.val; omega)
    exact { hi with
      pcBound := pc_add_toNat hlive (by decide)
      stackBound := fun k hk => hi.stackBound k (lt_of_lt_of_le hk (Nat.sub_le _ _)) }
  | call hs =>
    exact { hi with
      pcBound := (zextAddr_le _).trans (by decide)
      stackBound := hi.stackBound_call hpc hs }
  | stored hm => exact { hi with memWF := hm hi.memWF, pcBound := hnext }
  | keyAwaited => exact { hi with }
  | @delayStarted _ _ r =>
    have hnow := le_laterOf_left s.now r
    exact { hi with
      pcBound := hnext
      dtPast := le_refl _
      stPast := hi.stPast.trans hnow
      pacePast := hi.pacePast.trans hnow }
  | @soundStarted _ _ r =>
    have hnow := le_laterOf_left s.now r
    exact { hi with
      pcBound := hnext
      dtPast := hi.dtPast.trans hnow
      stPast := le_refl _
      pacePast := hi.pacePast.trans hnow }
  | fatal => exact hi.raiseFatal _

/-- The pace phase does not turn the clock back (R293). -/
theorem State.le_pace_now (s : State) : s.now ≤ s.pace.now :=
  calc s.now ≤ laterOf s.now s.env.paceTime := le_laterOf_left _ _
    _ ≤ _ := (le_paceRelease _ _ _).1
    _ ≤ s.pace.now := le_laterOf_left _ _

theorem State.Inv.pace {s : State} (hi : s.Inv) : s.pace.Inv :=
  { hi with
    dtPast := hi.dtPast.trans s.le_pace_now
    stPast := hi.stPast.trans s.le_pace_now
    pacePast := le_refl _ }

/-- A tick records no instant after the one it is given (R252). -/
theorem Timer.tick_last_le {T : Timer} {now t : Instant} (period : ℚ) (hT : T.last ≤ now) (ht : now ≤ t) :
    (T.tick period t).last ≤ t := by
  obtain ⟨-, -, hx⟩ | ⟨-, hx⟩ := T.tick_cases period t
  · rw [hx]
  · rw [hx]; exact hT.trans ht

theorem State.Inv.tickTimers {s : State} (hi : s.Inv) : s.tickTimers.Inv :=
  have hnow : s.now ≤ laterOf s.now s.env.tickTime := le_laterOf_left _ _
  { hi with
    dtPast := Timer.tick_last_le _ hi.dtPast hnow
    stPast := Timer.tick_last_le _ hi.stPast hnow
    pacePast := hi.pacePast.trans hnow }

theorem State.Inv.endCycle {s : State} (hi : s.Inv) : s.endCycle.Inv := by
  unfold State.endCycle
  split
  · exact hi.pace.tickTimers
  · exact hi

/-- Settles O59: the instruction was fetched from `pc`, so `pc` was at most `0xFFE` when it executed. -/
theorem stepKeepsInvariant : Obligations.StepKeepsInvariant := by
  intro s t hi h
  obtain ⟨-, rfl⟩ | ⟨-, rfl⟩ | ⟨-, ⟨g, -, rfl⟩ | ⟨w, -, -, rfl⟩ | ⟨w, i, u, hw, -, hu, rfl⟩⟩ := step_cases h
  · exact hi.raiseFatal _
  · exact hi
  · exact hi.beginCycle.raiseFatal g
  · exact hi.beginCycle.raiseFatal _
  · have hpc : s.beginCycle.pc.toNat ≤ 0xFFE := Nat.le_of_succ_le_succ (State.fetch_eq_ok hw).1
    exact (hi.beginCycle.effect hpc (exec_effect hu)).endCycle

theorem State.inv_reset : State.reset.Inv where
  memWF := Memory.wf_nil
  clockPositive := by decide
  pcBound := by decide
  stackBound := fun k hk => absurd hk (Nat.not_lt_zero _)
  dtPast := le_refl _
  stPast := le_refl _
  pacePast := le_refl _

/-- Creation writes the font over the state at reset: at most 80 bytes, all inside memory (R280). -/
theorem Memory.wf_font (font : List Byte) : Memory.WF (Memory.writeBytes [] fontBase (font.take 80)) :=
  Memory.wf_writeBytes _ _ _ Memory.wf_nil
    (by have := List.length_take_le 80 font; unfold fontBase topAddress; omega)

theorem State.inv_initial (font : List Byte) (params : Params) (hz : Nat) : (State.initial font params hz).Inv :=
  { State.inv_reset with memWF := Memory.wf_font font, clockPositive := clockSetting_pos hz }

/-- Settles O58: at reset every recorded instant is the clock's own 0, and creation adds a font and a positive speed. -/
theorem resetHasInvariant : Obligations.ResetHasInvariant := ⟨State.inv_reset, State.inv_initial⟩

/-- A loaded image ends inside memory, since `ROM_MAX` is at most 3584 (R283). -/
theorem State.Inv.load {s t : State} {rom : List Byte} {reading : Instant} (hi : s.Inv)
    (h : s.load rom reading = .ok t) : t.Inv := by
  obtain ⟨-, -, hlen, rfl⟩ := State.load_eq_ok h
  have hmax := (romMax_bounds s.params).2
  have hnow := le_laterOf_left s.now reading
  exact { hi with
    memWF := Memory.wf_writeBytes _ _ _ hi.memWF (by unfold programBase topAddress; omega)
    pcBound := by show (BitVec.ofNat 16 programBase).toNat ≤ 0x10FE; decide
    dtPast := hi.dtPast.trans hnow
    stPast := hi.stPast.trans hnow
    pacePast := le_refl _ }

theorem State.Inv.setClockSpeed {s t : State} {hz : Nat} (hi : s.Inv) (h : s.setClockSpeed hz = some t) : t.Inv := by
  obtain ⟨-, rfl⟩ := State.setClockSpeed_eq_some h
  exact { hi with clockPositive := clockSetting_pos hz }

/-- Settles O60: by induction on how the host has brought the machine there. -/
theorem reachableStatesHaveInvariant : Obligations.ReachableStatesHaveInvariant := by
  intro s hs
  induction hs with
  | created font params hz => exact State.inv_initial font params hz
  | loaded rom reading _ hload ih => exact ih.load hload
  | configured hz _ hset ih => exact ih.setClockSpeed hset
  | stepped _ hstep ih => exact stepKeepsInvariant _ _ ih hstep

end Sys2Proof.Machine
end

section
/-! What no instruction reads: the sound timer, the clock speed, `PACE_last`, and, but for a return, the stack's slots
(10_state.md R32, R39). -/

namespace Sys2Proof.Machine

/-- The state with another sound timer, clock speed and `PACE_last`, and other contents of the stack's slots. -/
def State.withUnseen (s : State) (T : Timer) (hz : Nat) (p : Instant) (slots : Vector Word 16) : State :=
  { s with st := T, clockSpeed := hz, paceLast := p, stack := slots }

section
variable (s : State) (T : Timer) (hz : Nat) (p : Instant) (slots : Vector Word 16)

theorem State.ifInRange_withUnseen (base count : Nat) (k : State) :
    (s.withUnseen T hz p slots).ifInRange base count (k.withUnseen T hz p slots) =
      (s.ifInRange base count k).withUnseen T hz p slots := by
  unfold State.ifInRange
  split <;> rfl

theorem State.storeRegs_withUnseen (base n : Nat) :
    (s.withUnseen T hz p slots).storeRegs base n = (s.storeRegs base n).withUnseen T hz p slots := by
  induction n with
  | zero => rfl
  | succ k ih => rw [State.storeRegs, ih]; rfl

theorem State.loadRegs_withUnseen (base n : Nat) :
    (s.withUnseen T hz p slots).loadRegs base n = (s.loadRegs base n).withUnseen T hz p slots := by
  induction n with
  | zero => rfl
  | succ k ih => rw [State.loadRegs, ih]; rfl

/-- Every instruction but a return, a call and the start of the sound timer acts as if these fields were not there. -/
theorem exec_withUnseen {i : Instr} {s t : State} (h : exec i s = .next t) (hret : i ≠ .ret)
    (hcall : ∀ nnn, i ≠ .call nnn) (hst : ∀ x, i ≠ .ldStVx x) :
    exec i (s.withUnseen T hz p slots) = .next (t.withUnseen T hz p slots) := by
  cases i with
  | ret => exact absurd rfl hret
  | call nnn => exact absurd rfl (hcall nnn)
  | ldStVx x => exact absurd rfl (hst x)
  | ldB | drw => cases h; rw [← State.ifInRange_withUnseen]; rfl
  | ldMemVx => cases h; rw [← State.ifInRange_withUnseen, exec, execLdMemVx, State.storeRegs_withUnseen]; rfl
  | ldVxMem => cases h; rw [← State.ifInRange_withUnseen, exec, execLdVxMem, State.loadRegs_withUnseen]; rfl
  | ldVxK => cases h; simp only [exec, execLdVxK, State.withUnseen]; split <;> rfl
  | _ => cases h; rfl

end

/-- `00EE` with an address held answers the state after the pop (R121). -/
theorem exec_ret_of_pos (s : State) (hs : 0 < s.sp.val) :
    exec .ret s =
      .next { s with pc := s.stack[s.sp.val - 1]'(by omega) + 2, sp := ⟨s.sp.val - 1, by omega⟩ } := by
  rw [exec, execRet, State.pop_of_pos s hs]; rfl

theorem exec_ret_of_empty (s : State) (hs : s.sp = 0) : exec .ret s = .next (s.raiseFatal .stackUnderflow) := by
  rw [exec, execRet, State.pop_of_empty s hs]

/-- `2NNN` with fewer than 16 addresses held answers the state after the push (R122). -/
theorem exec_call_of_lt (nnn : Addr) (s : State) (hs : s.sp.val < 16) :
    exec (.call nnn) s =
      .next { s with pc := zextAddr nnn, stack := s.stack.set s.sp.val s.pc hs, sp := ⟨s.sp.val + 1, by omega⟩ } := by
  rw [exec, execCall, State.push_of_lt s _ hs]; rfl

theorem exec_call_of_full (nnn : Addr) (s : State) (hs : s.sp = 16) :
    exec (.call nnn) s = .next (s.raiseFatal .stackOverflow) := by
  rw [exec, execCall, State.push_of_full s _ hs]

/-- Stacks that agree below `SP` agree below the new `SP` once the slot at `SP` is written. -/
theorem getElem_set_congr {slots stack : Vector Word 16} {n : Nat} {a : Word}
    (hlive : ∀ k : Fin 16, k.val < n → slots[k] = stack[k]) (hn : n < 16) {k : Fin 16} (hk : k.val < n + 1) :
    (slots.set n a hn)[k] = (stack.set n a hn)[k] := by
  simp only [Fin.getElem_fin, Vector.getElem_set] at hlive ⊢
  split
  · rfl
  · exact hlive k (by omega)

/-- Settles O52: a return and a call depend on the stack alone, the start of the sound timer sets it whatever it was, and no
other instruction sees these fields. -/
theorem timingStateIsInvisible : Obligations.TimingStateIsInvisible := by
  intro i s t T hz p h
  by_cases hret : i = .ret
  · subst hret
    obtain ⟨hs, rfl⟩ | ⟨hs, rfl⟩ := exec_ret_cases h
    · exact exec_ret_of_pos (s.withUnseen T hz p s.stack) hs
    · exact exec_ret_of_empty _ hs
  by_cases hcall : ∃ nnn, i = .call nnn
  · obtain ⟨nnn, rfl⟩ := hcall
    obtain ⟨hs, rfl⟩ | ⟨hs, rfl⟩ := exec_call_cases h
    · exact exec_call_of_lt nnn (s.withUnseen T hz p s.stack) hs
    · exact exec_call_of_full nnn _ hs
  by_cases hst : ∃ x, i = .ldStVx x
  · obtain ⟨x, rfl⟩ := hst
    cases h; rfl
  rw [not_exists] at hcall hst
  obtain ⟨-, hstack, -⟩ := stackFrame i s t h
  have hkept : t.withUnseen T hz p s.stack = { t with st := T, clockSpeed := hz, paceLast := p } := by
    rw [← hstack hcall]; rfl
  split
  · exact absurd rfl (hst _)
  · rw [← hkept]; exact exec_withUnseen T hz p s.stack h hret hcall hst

/-- Settles O53: a return reads the slot under `SP`, which both states share; a call writes the slot at `SP`, the same in
both; no other instruction sees the slots. -/
theorem deadSlotsAreNeverRead : Obligations.DeadSlotsAreNeverRead := by
  intro i s t slots h hlive
  by_cases hret : i = .ret
  · subst hret
    obtain ⟨hs, rfl⟩ | ⟨hs, rfl⟩ := exec_ret_cases h
    · have hnewest : slots[s.sp.val - 1] = s.stack[s.sp.val - 1] :=
        hlive ⟨s.sp.val - 1, by omega⟩ (by show s.sp.val - 1 < s.sp.val; omega)
      refine ⟨_, exec_ret_of_pos { s with stack := slots } hs, by simp only [hnewest], fun k hk => hlive k ?_⟩
      exact lt_of_lt_of_le hk (Nat.sub_le _ _)
    · exact ⟨_, exec_ret_of_empty { s with stack := slots } hs, rfl, hlive⟩
  by_cases hcall : ∃ nnn, i = .call nnn
  · obtain ⟨nnn, rfl⟩ := hcall
    obtain ⟨hs, rfl⟩ | ⟨hs, rfl⟩ := exec_call_cases h
    · refine ⟨_, exec_call_of_lt nnn { s with stack := slots } hs, rfl, fun k hk => ?_⟩
      exact getElem_set_congr hlive hs hk
    · exact ⟨_, exec_call_of_full nnn { s with stack := slots } hs, rfl, hlive⟩
  by_cases hst : ∃ x, i = .ldStVx x
  · obtain ⟨x, rfl⟩ := hst
    cases h; exact ⟨_, rfl, rfl, hlive⟩
  rw [not_exists] at hcall hst
  obtain ⟨hsp, hstack, -⟩ := stackFrame i s t h
  obtain ⟨hclock, hpace, -, -, -, -, hsound, -⟩ := controlStateFrame i s t h
  refine ⟨_, exec_withUnseen s.st s.clockSpeed s.paceLast slots h hret hcall hst, ?_, fun k hk => ?_⟩
  · rw [← hclock, ← hpace, ← hsound hst]; rfl
  · rw [hsp hcall hret] at hk
    rw [hstack hcall]
    exact hlive k hk

end Sys2Proof.Machine
end

section
/-! The state after creation and load (10_state.md R41). -/

namespace Sys2Proof.Machine

/-- Outside the font's place memory reads 0 where nothing is listed (R41, R61). -/
theorem Memory.unlisted_outside_font {a : Nat} (h : a < 0x050 ∨ 0x09F < a) : Memory.unlisted a = 0 := by
  unfold Memory.unlisted fontBase
  split
  · rfl
  · exact List.getD_eq_default _ _ (by rw [show defaultFont.length = 80 from rfl]; omega)

/-- An image that fits ends inside memory (R283). -/
theorem program_end_le {rom : List Byte} {params : Params} (h : rom.length ≤ params.romMax) :
    programBase + rom.length ≤ topAddress + 1 := by
  have := (romMax_bounds params).2
  unfold programBase topAddress
  omega

/-- A load of a nonempty image that fits succeeds while `Uninitialized` (R283). -/
theorem State.load_eq_ok_of_fits {s : State} {rom : List Byte} (reading : Instant) (hrun : s.run = .uninitialized)
    (hne : rom ≠ []) (hlen : rom.length ≤ s.params.romMax) :
    s.load rom reading = .ok { s.readClock reading with
      mem := Memory.writeBytes s.mem programBase rom, pc := BitVec.ofNat 16 programBase,
      paceLast := laterOf s.now reading, run := .ready } := by
  rw [State.load, if_neg (not_not.2 hrun), if_neg hne, if_neg (Nat.not_lt.2 hlen)]
  rfl

theorem State.getV_initial (font : List Byte) (params : Params) (hz : Nat) (r : Nibble) :
    (State.initial font params hz).getV r = 0 :=
  Vector.getElem_replicate r.isLt

/-- Settles O55: the load's bytes lie above the font's, so each of the two writes is read back. -/
theorem loadedStateIsReady : Obligations.LoadedStateIsReady := by
  intro font rom params hz reading hfont hne hlen
  have hrom := program_end_le hlen
  have htake : font.take 80 = font := List.take_of_length_le hfont.le
  have hmem : (State.initial font params hz).mem = Memory.writeBytes [] fontBase font := congrArg _ htake
  have hwf := (State.inv_initial font params hz).memWF
  refine ⟨_, State.load_eq_ok_of_fits reading rfl hne hlen, State.getV_initial font params hz,
    fun k => BitVec.getLsbD_zero, ?font, ?image, ?rest, rfl, rfl⟩
  case font =>
    intro k hk
    rw [State.readByte, Memory.read_writeBytes_other _ _ _ _ (by unfold programBase; omega), hmem]
    exact Memory.read_writeBytes font [] fontBase k Memory.wf_nil (by unfold fontBase topAddress; omega) hk
  case image =>
    intro k hk
    exact Memory.read_writeBytes rom _ programBase k hwf hrom hk
  case rest =>
    intro a hfontPlace hromPlace
    rw [State.readByte, Memory.read_writeBytes_other rom _ programBase a hromPlace, hmem,
      Memory.read_writeBytes_other _ _ _ _ (by unfold fontBase; omega)]
    exact Memory.unlisted_outside_font hfontPlace

end Sys2Proof.Machine
end

section
/-! Fetch and memory: the word at `pc`, the cycle that runs it, and the bytes an instruction stores (20_memory.md R65 to R73). -/

namespace Sys2Proof.Machine

theorem wordOfBytes_toNat (hi lo : Byte) : (wordOfBytes hi lo).toNat = 256 * hi.toNat + lo.toNat := by
  rw [wordOfBytes, BitVec.toNat_append, ← Nat.shiftLeft_add_eq_or_of_lt lo.isLt, Nat.shiftLeft_eq]
  omega

/-- Two bytes decode to the instruction their word decodes to (R90). -/
theorem decodeWord_eq_some_of_decode {hi lo : Byte} {i : Instr} (h : decode [hi, lo] = .ok (i, [])) :
    decodeWord (wordOfBytes hi lo) = some i := by
  rw [decode] at h
  split at h
  · rename_i j hj; cases h; exact hj
  · cases h

theorem State.fetch_of_le {s : State} (h : s.pc.toNat + 1 ≤ 0xFFF) :
    s.fetch = .ok (wordOfBytes (s.readByte s.pc.toNat) (s.readByte (s.pc.toNat + 1))) := if_pos h

theorem State.fetch_of_bytes {s : State} {a : Nat} {hi lo : Byte} (hpc : s.pc.toNat = a) (ha : a + 1 ≤ 0xFFF)
    (hhi : s.readByte a = hi) (hlo : s.readByte (a + 1) = lo) : s.fetch = .ok (wordOfBytes hi lo) := by
  subst hpc hhi hlo
  exact State.fetch_of_le ha

theorem State.fetch_of_ge {s : State} (h : 0xFFF ≤ s.pc.toNat) : s.fetch = .error .fetchOutOfBounds :=
  if_neg (by unfold topAddress; omega)

/-- The beginning of a cycle touches neither `pc` nor memory, so it does not change what is fetched (R262). -/
theorem State.fetch_beginCycle (s : State) : s.beginCycle.fetch = s.fetch := rfl

/-- A loaded core that has not halted runs a cycle (R263). -/
theorem step_eq_runCycle {s : State} (h : s.run = .ready ∨ s.run = .running) : step s = runCycle s := by
  rcases h with h | h <;> rw [step, h]

theorem runCycle_of_fetch_error {s : State} {g : FatalTag} (h : s.fetch = .error g) :
    runCycle s = .next (s.beginCycle.raiseFatal g) := by
  simp only [runCycle, State.fetch_beginCycle, h]

/-- Settles O6: the fetch gives the word of the two bytes, and the cycle then follows the instruction's outcome. -/
theorem stepRunsDecodedInstruction : Obligations.StepRunsDecodedInstruction := by
  intro s i hrun hpc hdecode
  have hfetch := State.fetch_of_le hpc
  have hword := decodeWord_eq_some_of_decode hdecode
  rw [step_eq_runCycle hrun]
  cases hexec : exec i s.beginCycle with
  | next t | fault f | refused r => simp only [runCycle, State.fetch_beginCycle, hfetch, hword, hexec]

/-- Settles O9: the bounds check of the fetch divides the two clauses between `0xFFE` and `0xFFF`. -/
theorem fetchReadsBigEndianWord : Obligations.FetchReadsBigEndianWord := by
  refine fun s => ⟨fun hpc => ⟨_, State.fetch_of_le (by omega), wordOfBytes_toNat _ _⟩, fun hpc hrun => ?_⟩
  rw [step_eq_runCycle hrun, runCycle_of_fetch_error (State.fetch_of_ge hpc)]
  rfl

/-- The byte at `base + r` is `V[r]` after a dump of `V0` to `Vx` that reaches it (R185). -/
theorem State.readByte_storeRegs_regCount {s : State} {base : Nat} {x r : Nibble} (hm : Memory.WF s.mem)
    (hfit : base + x.toNat ≤ 0xFFF) (hr : r.toNat ≤ x.toNat) :
    (s.storeRegs base (regCount x)).readByte (base + r.toNat) = s.getV r := by
  rw [State.readByte_storeRegs s base _ _ hm (by unfold regCount topAddress; omega) (by unfold regCount; omega),
    BitVec.ofNat_toNat, BitVec.setWidth_eq]

/-- Settles O31: `pc + 2` does not wrap, and the two bytes there are the dump's bytes for `V[r]` and `V[r + 1]`. -/
theorem storeSeenByNextFetch : Obligations.StoreSeenByNextFetch := by
  intro x r s t hm hfit hr hpc hexec
  obtain ⟨-, rfl⟩ | ⟨hout, -⟩ := exec_ldMemVx_cases hexec
  · have hnext : (s.pc + 2).toNat = s.baseAddress + r.toNat := by unfold State.baseAddress; bv_omega
    have hsucc : (r + 1).toNat = r.toNat + 1 := by bv_omega
    have hhi := State.readByte_storeRegs_regCount hm hfit (r := r) (by omega)
    have hlo := State.readByte_storeRegs_regCount hm hfit (r := r + 1) (by omega)
    rw [hsucc, ← Nat.add_assoc] at hlo
    exact State.fetch_of_bytes hnext (by unfold State.baseAddress; omega) hhi hlo
  · omega

/-- An instruction that stores no byte leaves memory as it was (R69). -/
theorem exec_mem_of_storedBytes_eq_zero {i : Instr} {s t : State} (h : exec i s = .next t)
    (hi : i.storedBytes = 0) : t.mem = s.mem := by
  cases i with
  | ldB | ldMemVx => cases hi
  | ret => obtain ⟨_, rfl⟩ | ⟨-, rfl⟩ := exec_ret_cases h <;> rfl
  | call => obtain ⟨_, rfl⟩ | ⟨-, rfl⟩ := exec_call_cases h <;> rfl
  | drw => obtain ⟨-, rfl⟩ | ⟨-, rfl⟩ := exec_drw_cases h <;> rfl
  | ldVxK => obtain ⟨_, -, rfl⟩ | ⟨-, rfl⟩ := exec_ldVxK_cases h <;> rfl
  | ldVxMem => obtain ⟨-, rfl⟩ | ⟨-, rfl⟩ := exec_ldVxMem_cases h <;> rfl
  | _ => cases h; rfl

/-- Settles O49: only `FX33` and `FX55` store bytes, each within the range the statement leaves out. -/
theorem memoryFrame : Obligations.MemoryFrame := by
  intro i s t a h ha
  cases i with
  | ldB x =>
    obtain ⟨-, rfl⟩ | ⟨-, rfl⟩ := exec_ldB_cases h
    · exact Memory.read_writeBytes_other (bcdDigits (s.getV x)) s.mem s.baseAddress a ha
    · rfl
  | ldMemVx x =>
    obtain ⟨-, rfl⟩ | ⟨-, rfl⟩ := exec_ldMemVx_cases h
    · exact State.readByte_storeRegs_other s s.baseAddress (regCount x) a ha
    · rfl
  | _ => rw [State.readByte, State.readByte, exec_mem_of_storedBytes_eq_zero h rfl]

end Sys2Proof.Machine
end

section
/-! Decoding and encoding are inverse to each other (30_encoding.md R90 to R96). -/

namespace Sys2Proof

/-- The word of an instruction decodes to it: the format's fields give back the family, the sub-key and the operands. -/
theorem decodeWord_encode (i : Instr) : decodeWord (encode i) = some i := by
  cases i with
  | cls | ret => rfl
  | jp | call | ldI | jpV0 | seImm | sneImm | ldImm | addImm | rnd | drw | seReg | sneReg | skp | sknp =>
    simp [encode, decodeWord]
  | ldReg | orReg | andReg | xorReg | addReg | sub | shr | subn | shl => simp [encode, decodeWord, decodeFamily8]
  | ldVxDt | ldVxK | ldDtVx | ldStVx | addI | ldF | ldB | ldMemVx | ldVxMem =>
    simp [encode, decodeWord, decodeFamilyF]

/-- The bytes of a word decode to the word's instruction, and what follows them is left over (R90, R91). -/
theorem decode_bytesOfWord {w : Word} {i : Instr} (h : decodeWord w = some i) (rest : List Byte) :
    decode (bytesOfWord w ++ rest) = .ok (i, rest) := by
  simp only [bytesOfWord, List.cons_append, List.nil_append, decode, wordOfBytes_bytes, h]

/-- Settles O2: the two bytes put together are the word of `i`, and that word decodes to `i`. -/
theorem decodeInvertsEncode : Obligations.DecodeInvertsEncode :=
  fun i rest => decode_bytesOfWord (decodeWord_encode i) rest

/-- Settles O1: each accepted word is the encoding of the instruction the spec gives, so O2 decodes it; the two refused
byte strings are evaluated. -/
theorem specWordsDecode : Obligations.SpecWordsDecode :=
  ⟨decodeInvertsEncode .cls [], decodeInvertsEncode .ret [0x12], decodeInvertsEncode (.jp 0x234) [],
    decodeInvertsEncode (.sneImm 0xF 0xFE) [], decodeInvertsEncode (.addReg 1 2) [],
    decodeInvertsEncode (.ldI 0x2F0) [], decodeInvertsEncode (.drw 1 2 0xA) [], decodeInvertsEncode (.skp 2) [],
    decodeInvertsEncode (.ldVxMem 1) [], rfl, rfl⟩

/-- In family 8 the word is its high nibble, the two registers and the sub-key that chose the instruction. -/
theorem encode_of_decodeFamily8 {w : Word} {i : Instr} (hop : fieldOp w = 0x8) (h : decodeFamily8 w = some i) :
    encode i = w := by
  have hXY := formatXY_fields w
  rw [hop] at hXY
  unfold decodeFamily8 at h
  split at h
  case h_10 => cases h
  all_goals
    rename_i hn
    cases h
    rwa [hn] at hXY

/-- In family F the word is its high nibble, the register and the sub-key that chose the instruction. -/
theorem encode_of_decodeFamilyF {w : Word} {i : Instr} (hop : fieldOp w = 0xF) (h : decodeFamilyF w = some i) :
    encode i = w := by
  have hXI := formatXI_fields w
  rw [hop] at hXI
  unfold decodeFamilyF at h
  split at h
  case h_10 => cases h
  all_goals
    rename_i hnn
    cases h
    rwa [hnn] at hXI

/-- The sixteen values of a nibble. -/
theorem nibble_mem_all (b : Nibble) :
    b ∈ ([0x0, 0x1, 0x2, 0x3, 0x4, 0x5, 0x6, 0x7, 0x8, 0x9, 0xA, 0xB, 0xC, 0xD, 0xE, 0xF] : List Nibble) := by
  revert b
  decide

/-- Settles O3: by the families of the dispatch; each instruction's format puts the word's fields together again. -/
theorem encodeInvertsDecode : Obligations.EncodeInvertsDecode := by
  intro w i h
  have hA := formatA_fields w
  have hXI := formatXI_fields w
  have hXY := formatXY_fields w
  unfold decodeWord at h
  dsimp only at h
  split at h
  -- family 0, keyed by `nnn`
  case h_1 _ hop =>
    split at h
    · rename_i hnnn
      cases h; rwa [hop, hnnn] at hA
    · split at h
      · rename_i hnnn
        cases h; rwa [hop, hnnn] at hA
      · cases h
  -- families 1, 2, A, B: format A
  case h_2 _ hop | h_3 _ hop | h_11 _ hop | h_12 _ hop => cases h; rwa [hop] at hA
  -- families 3, 4, 6, 7, C: format XI
  case h_4 _ hop | h_5 _ hop | h_7 _ hop | h_8 _ hop | h_13 _ hop => cases h; rwa [hop] at hXI
  -- families 5 and 9: format XY, whose low nibble must be 0
  case h_6 _ hop | h_10 _ hop =>
    split at h
    · rename_i hn
      cases h; rwa [hop, hn] at hXY
    · cases h
  -- family D: format XYN
  case h_14 _ hop => cases h; rwa [hop] at hXY
  case h_9 _ hop => exact encode_of_decodeFamily8 hop h
  -- family E, keyed by `nn`
  case h_15 _ hop =>
    split at h
    · rename_i hnn
      cases h; rwa [hop, hnn] at hXI
    · split at h
      · rename_i hnn
        cases h; rwa [hop, hnn] at hXI
      · cases h
  case h_16 =>
    have hop : fieldOp w = 0xF := by
      have := nibble_mem_all (fieldOp w)
      simp_all
    exact encode_of_decodeFamilyF hop h

end Sys2Proof
end

section
/-! The opcode map: its rows share no word, and the decoder follows it (30_encoding.md R95, R96). -/

namespace Sys2Proof

/-- A mask that covers the high nibble fixes it (R95). -/
theorem fieldOp_of_and {w m b : Word} (h : w &&& m = b) (hm : fieldOp m = 0xF) : fieldOp w = fieldOp b := by
  rw [← h, fieldOp, fieldOp, BitVec.extractLsb'_and, ← fieldOp, ← fieldOp, hm]
  exact BitVec.and_allOnes.symm

/-- A mask that covers the low nibble fixes it (R95). -/
theorem fieldN_of_and {w m b : Word} (h : w &&& m = b) (hm : fieldN m = 0xF) : fieldN w = fieldN b := by
  rw [← h, fieldN, fieldN, BitVec.extractLsb'_and, ← fieldN, ← fieldN, hm]
  exact BitVec.and_allOnes.symm

/-- A mask that covers the low byte fixes it (R95). -/
theorem fieldNN_of_and {w m b : Word} (h : w &&& m = b) (hm : fieldNN m = 0xFF) : fieldNN w = fieldNN b := by
  rw [← h, fieldNN, fieldNN, BitVec.extractLsb'_and, ← fieldNN, ← fieldNN, hm]
  exact BitVec.and_allOnes.symm

/-- A word that matches a row decodes: the row's mask fixes the high nibble and the sub-key the dispatch reads. -/
theorem decodeWord_ne_none_of_matches {i : Instr} {w : Word} (h : i.row.matchesWord w = true) :
    decodeWord w ≠ none := by
  rw [OpRow.matchesWord, beq_iff_eq] at h
  cases i with
  | cls | ret =>
    have hw : w = _ := BitVec.and_allOnes.symm.trans h
    rw [hw]; decide
  | jp | call | ldI | jpV0 | seImm | sneImm | ldImm | addImm | rnd | drw =>
    rw [Instr.row] at h
    have hop := fieldOp_of_and h rfl
    rw [decodeWord, hop]
    exact Option.some_ne_none _
  | seReg | sneReg =>
    rw [Instr.row] at h
    have hop := fieldOp_of_and h rfl
    have hn := fieldN_of_and h rfl
    rw [decodeWord, hop, hn]
    exact Option.some_ne_none _
  | ldReg | orReg | andReg | xorReg | addReg | sub | shr | subn | shl =>
    rw [Instr.row] at h
    have hop := fieldOp_of_and h rfl
    have hn := fieldN_of_and h rfl
    rw [decodeWord, hop, decodeFamily8, hn]
    exact Option.some_ne_none _
  | skp | sknp =>
    rw [Instr.row] at h
    have hop := fieldOp_of_and h rfl
    have hn := fieldNN_of_and h rfl
    rw [decodeWord, hop, hn]
    exact Option.some_ne_none _
  | ldVxDt | ldVxK | ldDtVx | ldStVx | addI | ldF | ldB | ldMemVx | ldVxMem =>
    rw [Instr.row] at h
    have hop := fieldOp_of_and h rfl
    have hn := fieldNN_of_and h rfl
    rw [decodeWord, hop, decodeFamilyF, hn]
    exact Option.some_ne_none _

/-- Two rows with a fixed bit in which they differ share no word (R95). -/
theorem OpRow.not_matches_of_disjointFrom {r q : OpRow} {w : Word} (hd : r.disjointFrom q = true)
    (hr : r.matchesWord w = true) : q.matchesWord w ≠ true := by
  intro hq
  rw [OpRow.matchesWord, beq_iff_eq] at hr hq
  rw [OpRow.disjointFrom, bne_iff_ne, ← hr, ← hq] at hd
  refine hd (BitVec.eq_of_getLsbD_eq fun k _ => ?_)
  have hbit : ∀ a b c : Bool, ((a && b ^^ a && c) && b && c) = false := by decide
  simp only [BitVec.getLsbD_and, BitVec.getLsbD_xor]
  exact (hbit _ _ _).trans BitVec.getLsbD_zero.symm

/-- In a well-formed map no word belongs to two rows (R95). -/
theorem eq_of_matches_of_wellFormed {rows : List OpRow} (hwf : opcodeMapWellFormed rows = true) {r q : OpRow}
    (hr : r ∈ rows) (hq : q ∈ rows) {w : Word} (hrw : r.matchesWord w = true) (hqw : q.matchesWord w = true) :
    r = q := by
  induction rows with
  | nil => cases hr
  | cons p rest ih =>
    rw [opcodeMapWellFormed, Bool.and_eq_true, Bool.and_eq_true, List.all_eq_true] at hwf
    obtain ⟨⟨-, hdisjoint⟩, hrest⟩ := hwf
    obtain rfl | hrRest := List.mem_cons.1 hr
    · obtain rfl | hqRest := List.mem_cons.1 hq
      · rfl
      · exact absurd hqw (OpRow.not_matches_of_disjointFrom (hdisjoint q hqRest) hrw)
    · obtain rfl | hqRest := List.mem_cons.1 hq
      · exact absurd hrw (OpRow.not_matches_of_disjointFrom (hdisjoint r hrRest) hqw)
      · exact ih hrest hrRest hqRest

/-- What Laws/Encoding says per instruction, for every instruction. -/
theorem encoding_statement (i : Instr) : Laws.Encoding.Statement i := by
  cases i with
  | cls => exact Laws.Encoding.cls
  | ret => exact Laws.Encoding.ret
  | jp => exact Laws.Encoding.jp _
  | call => exact Laws.Encoding.call _
  | seImm => exact Laws.Encoding.seImm _ _
  | sneImm => exact Laws.Encoding.sneImm _ _
  | seReg => exact Laws.Encoding.seReg _ _
  | ldImm => exact Laws.Encoding.ldImm _ _
  | addImm => exact Laws.Encoding.addImm _ _
  | ldReg => exact Laws.Encoding.ldReg _ _
  | orReg => exact Laws.Encoding.orReg _ _
  | andReg => exact Laws.Encoding.andReg _ _
  | xorReg => exact Laws.Encoding.xorReg _ _
  | addReg => exact Laws.Encoding.addReg _ _
  | sub => exact Laws.Encoding.sub _ _
  | shr => exact Laws.Encoding.shr _ _
  | subn => exact Laws.Encoding.subn _ _
  | shl => exact Laws.Encoding.shl _ _
  | sneReg => exact Laws.Encoding.sneReg _ _
  | ldI => exact Laws.Encoding.ldI _
  | jpV0 => exact Laws.Encoding.jpV0 _
  | rnd => exact Laws.Encoding.rnd _ _
  | drw => exact Laws.Encoding.drw _ _ _
  | skp => exact Laws.Encoding.skp _
  | sknp => exact Laws.Encoding.sknp _
  | ldVxDt => exact Laws.Encoding.ldVxDt _
  | ldVxK => exact Laws.Encoding.ldVxK _
  | ldDtVx => exact Laws.Encoding.ldDtVx _
  | ldStVx => exact Laws.Encoding.ldStVx _
  | addI => exact Laws.Encoding.addI _
  | ldF => exact Laws.Encoding.ldF _
  | ldB => exact Laws.Encoding.ldB _
  | ldMemVx => exact Laws.Encoding.ldMemVx _
  | ldVxMem => exact Laws.Encoding.ldVxMem _

/-- A word that decodes is its instruction's encoding, so it matches the instruction's row (R95). -/
theorem row_of_decodeWord {w : Word} {i : Instr} (h : decodeWord w = some i) :
    i.row ∈ opcodeMap ∧ i.row.matchesWord w = true := by
  obtain ⟨hmem, -, hbits⟩ := encoding_statement i
  rw [encodeInvertsDecode w i h] at hbits
  exact ⟨hmem, beq_iff_eq.2 hbits⟩

/-- Settles O4: what decodes matches its row, what matches a row decodes, and the map is well formed. -/
theorem decodeFollowsOpcodeMap : Obligations.DecodeFollowsOpcodeMap := by
  refine ⟨fun w i => row_of_decodeWord, fun w => ⟨?noRow, ?noInstr⟩, ?disjoint⟩
  case noRow =>
    intro hnone r hr
    obtain ⟨i, -, rfl⟩ := List.mem_map.1 hr
    exact Bool.eq_false_iff.2 fun hmatch => decodeWord_ne_none_of_matches hmatch hnone
  case noInstr =>
    intro hrows
    refine Option.eq_none_iff_forall_ne_some.2 fun i hi => ?_
    obtain ⟨hmem, hmatch⟩ := row_of_decodeWord hi
    exact Bool.eq_false_iff.1 (hrows _ hmem) hmatch
  case disjoint =>
    have hwf : opcodeMapWellFormed opcodeMap = true := by decide
    exact fun r hr q hq w => eq_of_matches_of_wellFormed hwf hr hq

end Sys2Proof
end

section
/-! The unknown opcodes, and the step that meets one (30_encoding.md R98; 60_exceptions.md R242). -/

namespace Sys2Proof

/-- The sub-keys family 8 leaves out (R98). -/
theorem decodeFamily8_eq_none_iff (w : Word) :
    decodeFamily8 w = none ↔ fieldN w ∈ ([0x8, 0x9, 0xA, 0xB, 0xC, 0xD, 0xF] : List Nibble) := by
  unfold decodeFamily8
  split
  case h_10 =>
    have := nibble_mem_all (fieldN w)
    simp_all
  all_goals
    rename_i hn
    simp [hn]

/-- The sub-keys family F leaves out (R98). -/
theorem decodeFamilyF_eq_none_iff (w : Word) : decodeFamilyF w = none ↔
    fieldNN w ∉ ([0x07, 0x0A, 0x15, 0x18, 0x1E, 0x29, 0x33, 0x55, 0x65] : List Byte) := by
  unfold decodeFamilyF
  split
  case h_10 => simp_all
  all_goals
    rename_i hn
    simp [hn]

/-- The words that do not decode are those R98 lists, family by family. -/
theorem decodeWord_eq_none_iff (w : Word) : decodeWord w = none ↔
    (fieldOp w = 0x0 ∧ fieldNNN w ≠ 0x0E0 ∧ fieldNNN w ≠ 0x0EE) ∨
    (fieldOp w = 0x5 ∧ fieldN w ≠ 0) ∨ (fieldOp w = 0x9 ∧ fieldN w ≠ 0) ∨
    (fieldOp w = 0x8 ∧ fieldN w ∈ ([0x8, 0x9, 0xA, 0xB, 0xC, 0xD, 0xF] : List Nibble)) ∨
    (fieldOp w = 0xE ∧ fieldNN w ≠ 0x9E ∧ fieldNN w ≠ 0xA1) ∨
    (fieldOp w = 0xF ∧ fieldNN w ∉ ([0x07, 0x0A, 0x15, 0x18, 0x1E, 0x29, 0x33, 0x55, 0x65] : List Byte)) := by
  unfold decodeWord
  dsimp only
  split
  case h_16 =>
    have hop : fieldOp w = 0xF := by
      have := nibble_mem_all (fieldOp w)
      simp_all
    simp [hop, decodeFamilyF_eq_none_iff]
  all_goals
    rename_i hop
    simp [hop, decodeFamily8_eq_none_iff, ite_eq_iff]

end Sys2Proof

namespace Sys2Proof.Machine

/-- A cycle that fetches an unknown opcode ends in `UnknownOpcode` (R98, R242). -/
theorem runCycle_of_decodeWord_eq_none {s : State} {w : Word} (hfetch : s.fetch = .ok w) (hw : decodeWord w = none) :
    runCycle s = .next (s.beginCycle.raiseFatal .unknownOpcode) := by
  simp only [runCycle, State.fetch_beginCycle, hfetch, hw]

/-- Settles O5: the sub-keys each family leaves out, and the cycle's arm for a word that does not decode. -/
theorem unknownOpcodesHalt : Obligations.UnknownOpcodesHalt := by
  refine ⟨decodeWord_eq_none_iff, fun s w hrun hfetch hw => ?_⟩
  rw [step_eq_runCycle hrun, runCycle_of_decodeWord_eq_none hfetch hw]
  rfl

end Sys2Proof.Machine
end

section
/-! Return, call, jumps and conditional skips (40_flow_control.md R120 to R128). -/

namespace Sys2Proof.Machine

/-- What a return finds in `u` when the state a call left has the same depth and live slots: the call's own address in the
slot at the caller's depth (D5). -/
theorem newest_slot_of_call {s u : State} (hs : s.sp.val < 16) (hsp : u.sp.val = s.sp.val + 1)
    (hlive : ∀ k : Fin 16, k.val < s.sp.val + 1 → u.stack[k] = (s.stack.set s.sp.val s.pc hs)[k]) :
    u.stack[u.sp.val - 1]'(by omega) = s.pc := by
  have hslot : u.stack[s.sp.val] = s.pc :=
    (hlive ⟨s.sp.val, hs⟩ (Nat.lt_succ_self _)).trans (Vector.getElem_set_self hs)
  simpa only [hsp, Nat.add_sub_cancel] using hslot

/-- Settles O18: the call leaves its own address in the newest live slot, which `u` shares, and the return pops it. -/
theorem callReturnRoundTrip : Obligations.CallReturnRoundTrip := by
  intro nnn s t u hs hcall hsp hlive
  rw [exec_call_of_lt nnn s hs] at hcall
  cases hcall
  have hdepth : u.sp.val = s.sp.val + 1 := congrArg Fin.val hsp
  have hback : (⟨u.sp.val - 1, by omega⟩ : Fin 17) = s.sp := Fin.ext (by simp only [hdepth, Nat.add_sub_cancel])
  rw [exec_ret_of_pos u (by omega), newest_slot_of_call hs hdepth hlive, hback]

/-- Settles O16: the state after the push, read slot by slot. -/
theorem callPushesItsAddress : Obligations.CallPushesItsAddress := by
  intro nnn s hs
  refine ⟨_, exec_call_of_lt nnn s hs, rfl, zextAddr_toNat nnn, rfl, fun k => ?_⟩
  simp only [Fin.getElem_fin, Vector.getElem_set]
  exact if_congr eq_comm rfl rfl

/-- Settles O17: with `SP = k + 1` the slot under `SP` is `k`. -/
theorem returnPopsAndAdvances : Obligations.ReturnPopsAndAdvances := by
  intro k s hk
  refine ⟨_, exec_ret_of_pos s (by omega), ?newest, ?depth⟩
  case newest => simp only [hk, Nat.add_sub_cancel, Fin.getElem_fin]
  case depth => simp only [hk, Nat.add_sub_cancel]

/-- Settles O14: the target of each jump as a number, which stays below 65536. -/
theorem jumpsSetPc : Obligations.JumpsSetPc := by
  intro nnn s
  have hbound : (s.getV 0).toNat + nnn.toNat ≤ 0x10FE := by omega
  have hplain : zextAddr nnn = BitVec.ofNat 16 nnn.toNat := (BitVec.ofNat_toNat 16 nnn).symm
  have hoffset : zextByte (s.getV 0) + zextAddr nnn = BitVec.ofNat 16 (((s.getV 0).toNat + nnn.toNat) % 65536) := by
    apply BitVec.eq_of_toNat_eq
    rw [BitVec.toNat_add, zextByte_toNat, zextAddr_toNat, BitVec.toNat_ofNat, Nat.mod_mod]
  refine ⟨rfl, rfl, ?jp, ?jpV0, hbound⟩
  case jp => rw [← hplain]; rfl
  case jpV0 => rw [← hoffset]; rfl

/-- A skip writes `pc` alone: 4 more when its condition holds, 2 more when it does not (R120). -/
theorem State.skipIf_decide (s : State) (c : Prop) [Decidable c] :
    s.skipIf (decide c) = { s with pc := if c then s.pc + 4 else s.pc + 2 } := by
  by_cases h : c <;> simp [State.skipIf, h]

/-- Settles O15: each skip tests its own condition. -/
theorem skipsCompareRegisters : Obligations.SkipsCompareRegisters := by
  intro x y nn s
  refine ⟨rfl, rfl, rfl, rfl, ?seImm, ?sneImm, ?seReg, ?sneReg⟩
  case seImm => rw [← State.skipIf_decide]; rfl
  case sneImm => rw [← State.skipIf_decide, decide_not]; rfl
  case seReg => rw [← State.skipIf_decide]; rfl
  case sneReg => rw [← State.skipIf_decide, decide_not]; rfl

end Sys2Proof.Machine
end

section
/-! Register load, arithmetic, logic, shift and random (41_register_alu.md R150 to R162). -/

namespace Sys2Proof.Machine

/-- An instruction that finishes with a result has the shape of R151 to R156 and R162. -/
theorem writesResult_of_exec {i : Instr} {s : State} {x : Nibble} {b : Byte} (h : exec i s = .next (s.finish x b)) :
    WritesResult i s x b :=
  ⟨_, h, s.finish_frame x b, fun r => s.getV_finish x r b⟩

/-- An instruction that finishes with a result and a flag has the shape of R157 to R161. -/
theorem writesResultAndFlag_of_exec {i : Instr} {s : State} {x : Nibble} {b f : Byte}
    (h : exec i s = .next (s.finishFlag x b f)) : WritesResultAndFlag i s x b f :=
  ⟨_, h, s.finishFlag_frame x b f, fun r => s.getV_finishFlag x r b f⟩

theorem byte_add_eq_ofNat (a b : Byte) : a + b = BitVec.ofNat 8 ((a.toNat + b.toNat) % 256) := by
  apply BitVec.eq_of_toNat_eq
  rw [BitVec.toNat_add, BitVec.toNat_ofNat, Nat.mod_mod]

theorem byte_sub_eq_ofNat (a b : Byte) : a - b = BitVec.ofNat 8 ((a.toNat + 256 - b.toNat) % 256) := by
  apply BitVec.eq_of_toNat_eq
  rw [BitVec.toNat_sub, BitVec.toNat_ofNat]
  omega

theorem byte_shiftRight_one_eq_ofNat (a : Byte) : a >>> 1 = BitVec.ofNat 8 (a.toNat / 2) := by
  apply BitVec.eq_of_toNat_eq
  rw [BitVec.toNat_ushiftRight, Nat.shiftRight_eq_div_pow, BitVec.toNat_ofNat]
  omega

theorem byte_shiftLeft_one_eq_ofNat (a : Byte) : a <<< 1 = BitVec.ofNat 8 (2 * a.toNat % 256) := by
  apply BitVec.eq_of_toNat_eq
  rw [BitVec.toNat_shiftLeft, Nat.shiftLeft_eq, BitVec.toNat_ofNat]
  omega

/-- The flag of a condition, as the rules write it (R157 to R160). -/
theorem flagOf_decide (c : Prop) [Decidable c] : flagOf (decide c) = if c then 1 else 0 := by
  simp only [flagOf, decide_eq_true_eq]

/-- The flag that reports bit `k` is that binary digit of the byte's value. -/
theorem flagOf_getLsbD (a : Byte) (k : Nat) : flagOf (a.getLsbD k) = BitVec.ofNat 8 (a.toNat / 2 ^ k % 2) := by
  rw [BitVec.getLsbD, Nat.testBit_eq_decide_div_mod_eq, flagOf_decide]
  obtain h | h := Nat.mod_two_eq_zero_or_one (a.toNat / 2 ^ k) <;> rw [h] <;> rfl

theorem lowBitFlag_eq_mod (a : Byte) : lowBitFlag a = BitVec.ofNat 8 (a.toNat % 2) := by
  rw [lowBitFlag, flagOf_getLsbD, Nat.pow_zero, Nat.div_one]

theorem highBitFlag_eq_div (a : Byte) : highBitFlag a = BitVec.ofNat 8 (a.toNat / 128) := by
  have hdigit : a.toNat / 2 ^ 7 % 2 = a.toNat / 128 := by omega
  rw [highBitFlag, flagOf_getLsbD, hdigit]

/-- Settles O19: the 8-bit sum is the sum modulo 256. -/
theorem immediateLoadAndAdd : Obligations.ImmediateLoadAndAdd := by
  intro x nn s
  rw [← byte_add_eq_ofNat]
  exact ⟨rfl, rfl, writesResult_of_exec rfl, writesResult_of_exec rfl⟩

/-- Settles O20: each instruction finishes with its result. -/
theorem copyAndLogic : Obligations.CopyAndLogic := fun _ _ _ =>
  ⟨rfl, rfl, rfl, rfl, writesResult_of_exec rfl, writesResult_of_exec rfl, writesResult_of_exec rfl,
    writesResult_of_exec rfl⟩

/-- Settles O21: the 8-bit sum is the sum modulo 256, and the flag after it is the carry of the exact sum. -/
theorem addSetsCarry : Obligations.AddSetsCarry := by
  intro x y s
  rw [← byte_add_eq_ofNat, ← flagOf_decide]
  exact ⟨rfl, writesResultAndFlag_of_exec rfl⟩

/-- Settles O22: the 8-bit difference is the difference modulo 256, and the flag after it compares the old values. -/
theorem subtractSetsNotBorrow : Obligations.SubtractSetsNotBorrow := by
  intro x y s
  refine ⟨rfl, rfl, ?sub, ?subn⟩
  all_goals
    rw [← byte_sub_eq_ofNat, ← flagOf_decide]
    exact writesResultAndFlag_of_exec rfl

/-- Settles O23: a shift by one halves or doubles the value, and the bit it pushes out is the value's last or first binary
digit. -/
theorem shiftsReportBitOut : Obligations.ShiftsReportBitOut := by
  intro x y s
  refine ⟨rfl, rfl, ?shr, ?shl⟩
  case shr =>
    rw [← byte_shiftRight_one_eq_ofNat, ← lowBitFlag_eq_mod]
    exact writesResultAndFlag_of_exec rfl
  case shl =>
    rw [← byte_shiftLeft_one_eq_ofNat, ← highBitFlag_eq_div]
    exact writesResultAndFlag_of_exec rfl

/-- Settles O24: the byte written is the conjunction of the environment's byte and `nn`, bit by bit. -/
theorem randomByteIsMasked : Obligations.RandomByteIsMasked := by
  intro x nn s
  exact ⟨rfl, s.env.random &&& nn, fun _ _ => BitVec.getLsbD_and, writesResult_of_exec rfl⟩

end Sys2Proof.Machine
end

section
/-! Index register and memory (42_index_memory.md R180 to R186). -/

namespace Sys2Proof.Machine

/-- The glyph's address as a number: the byte's low nibble selects one of 16 glyphs of 5 bytes (R183). -/
theorem glyphAddress_eq_ofNat (b : Byte) : glyphAddress b = BitVec.ofNat 16 (0x050 + 5 * (b.toNat % 16)) := by
  have hdigit : (b &&& 0x0F).toNat = b.toNat % 16 := Nat.and_two_pow_sub_one_eq_mod b.toNat 4
  have hwide : zextByte (b &&& 0x0F) = BitVec.ofNat 16 (b.toNat % 16) := by
    rw [zextByte, ← BitVec.ofNat_toNat, hdigit]
  rw [glyphAddress, hwide, BitVec.ofNat_add, BitVec.ofNat_mul]
  rfl

/-- Settles O25: both addresses as numbers. -/
theorem indexLoads : Obligations.IndexLoads := by
  intro x nnn s
  rw [← glyphAddress_eq_ofNat, BitVec.ofNat_toNat]
  exact ⟨rfl, rfl, rfl, rfl, by omega⟩

/-- Settles O26: the flag is written after `I`, from the values of `I` and `V[x]` before the instruction. -/
theorem indexAddSetsOverflow : Obligations.IndexAddSetsOverflow := by
  refine fun x s => ⟨rfl, _, rfl, rfl, ?sum, fun r => ?registers⟩
  case sum =>
    rw [State.advance_index, State.setFlag_index, State.setIndex_index, BitVec.toNat_add, zextByte_toNat]
  case registers =>
    rw [State.getV_advance, State.getV_setFlag, State.getV_setIndex, overflowFlag, flagOf_decide]

/-- An access whose bytes all lie in memory passes its bounds check (R65). -/
theorem State.ifInRange_of_le {s k : State} {base count : Nat} (h : base + count ≤ 0x1000) :
    s.ifInRange base count k = k :=
  if_pos ((inRange_iff base count).2 (by omega))

/-- An access that reaches beyond memory raises the error instead (R65, R245). -/
theorem State.ifInRange_of_gt {s k : State} {base count : Nat} (hcount : 0 < count) (h : 0x1000 < base + count) :
    s.ifInRange base count k = s.raiseFatal .memoryOutOfBounds :=
  if_neg (by rw [inRange_iff]; omega)

theorem exec_ldB_of_le (x : Nibble) {s : State} (h : s.index.toNat ≤ 0xFFD) :
    exec (.ldB x) s =
      .next { s with mem := Memory.writeBytes s.mem s.index.toNat (bcdDigits (s.getV x)), pc := s.pc + 2 } :=
  congrArg Host.Outcome.next (State.ifInRange_of_le (by unfold State.baseAddress; omega))

theorem exec_ldB_of_gt (x : Nibble) {s : State} (h : 0xFFD < s.index.toNat) :
    exec (.ldB x) s = .next (s.raiseFatal .memoryOutOfBounds) :=
  congrArg Host.Outcome.next (State.ifInRange_of_gt (by decide) (by unfold State.baseAddress; omega))

theorem exec_ldMemVx_of_le {x : Nibble} {s : State} (h : s.index.toNat + x.toNat ≤ 0xFFF) :
    exec (.ldMemVx x) s = .next (s.storeRegs s.index.toNat (regCount x)).advance :=
  congrArg Host.Outcome.next (State.ifInRange_of_le (by unfold State.baseAddress regCount; omega))

theorem exec_ldMemVx_of_gt {x : Nibble} {s : State} (h : 0xFFF < s.index.toNat + x.toNat) :
    exec (.ldMemVx x) s = .next (s.raiseFatal .memoryOutOfBounds) :=
  congrArg Host.Outcome.next
    (State.ifInRange_of_gt (Nat.succ_pos _) (by unfold State.baseAddress regCount; omega))

theorem exec_ldVxMem_of_le {x : Nibble} {s : State} (h : s.index.toNat + x.toNat ≤ 0xFFF) :
    exec (.ldVxMem x) s = .next (s.loadRegs s.index.toNat (regCount x)).advance :=
  congrArg Host.Outcome.next (State.ifInRange_of_le (by unfold State.baseAddress regCount; omega))

theorem exec_ldVxMem_of_gt {x : Nibble} {s : State} (h : 0xFFF < s.index.toNat + x.toNat) :
    exec (.ldVxMem x) s = .next (s.raiseFatal .memoryOutOfBounds) :=
  congrArg Host.Outcome.next
    (State.ifInRange_of_gt (Nat.succ_pos _) (by unfold State.baseAddress regCount; omega))

/-- Each digit fits in its byte. -/
theorem bcdDigits_map_toNat (b : Byte) :
    (bcdDigits b).map BitVec.toNat = [b.toNat / 100, b.toNat / 10 % 10, b.toNat % 10] := by
  simp only [bcdDigits, List.map_cons, List.map_nil, BitVec.toNat_ofNat, List.cons.injEq, and_true]
  omega

/-- The bytes `FX33` stores read back as the decimal digits (R184). -/
theorem Memory.read_writeBytes_bcdDigits {m : List Host.Cell} {a k : Nat} (b : Byte) (hm : Memory.WF m)
    (ha : a + 2 ≤ 0xFFF) (hk : k < 3) :
    (Memory.read (Memory.writeBytes m a (bcdDigits b)) (a + k)).toNat =
      [b.toNat / 100, b.toNat / 10 % 10, b.toNat % 10][k] := by
  have hfit : a + (bcdDigits b).length ≤ topAddress + 1 := Nat.succ_le_succ ha
  calc
    _ = ((bcdDigits b)[k]'hk).toNat := congrArg BitVec.toNat (Memory.read_writeBytes (bcdDigits b) m a k hm hfit hk)
    _ = ((bcdDigits b).map BitVec.toNat)[k]'hk := (List.getElem_map BitVec.toNat).symm
    _ = [b.toNat / 100, b.toNat / 10 % 10, b.toNat % 10][k] := List.getElem_of_eq (bcdDigits_map_toNat b) hk

/-- Settles O27: the bounds check divides the clauses between `0xFFD` and `0xFFE`; below, the bytes are the digits. -/
theorem bcdStoresDigits : Obligations.BcdStoresDigits := by
  intro x s hm
  refine ⟨rfl, fun hfit => ⟨_, exec_ldB_of_le x hfit, rfl, ?hundreds, ?tens, ?units, fun a ha => ?other⟩,
    exec_ldB_of_gt x⟩
  case hundreds => exact Memory.read_writeBytes_bcdDigits (k := 0) _ hm (by omega) (by decide)
  case tens => exact Memory.read_writeBytes_bcdDigits (k := 1) _ hm (by omega) (by decide)
  case units => exact Memory.read_writeBytes_bcdDigits (k := 2) _ hm (by omega) (by decide)
  case other => exact Memory.read_writeBytes_other _ _ _ _ (ha.imp_right Nat.succ_le_of_lt)

/-- Settles O28: the bounds check divides the clauses; the dump writes memory alone, byte by byte as its loop says. -/
theorem dumpStoresRegisters : Obligations.DumpStoresRegisters := by
  intro x s hm
  refine ⟨rfl, fun hfit => ⟨_, exec_ldMemVx_of_le hfit, ?frame, fun r hr => ?stored, fun a ha => ?other⟩,
    exec_ldMemVx_of_gt⟩
  case frame => rw [State.storeRegs_frame]; rfl
  case stored => exact State.readByte_storeRegs_regCount hm hfit hr
  case other => exact State.readByte_storeRegs_other s _ _ a (ha.imp_right Nat.succ_le_of_lt)

/-- Settles O29: the bounds check divides the clauses; the load writes registers alone, as its loop says. -/
theorem loadReadsRegisters : Obligations.LoadReadsRegisters := by
  intro x s
  refine ⟨rfl, fun hfit => ⟨_, exec_ldVxMem_of_le hfit, ?frame, fun r => ?loaded⟩, exec_ldVxMem_of_gt⟩
  case frame => rw [State.loadRegs_frame]; rfl
  case loaded =>
    rw [State.getV_advance, State.getV_loadRegs s _ (regCount x) r x.isLt]
    exact if_congr Nat.lt_succ_iff rfl rfl

/-- Settles O30: the load in `u` reads the bytes the dump left at the same addresses. -/
theorem dumpLoadRoundTrip : Obligations.DumpLoadRoundTrip := by
  intro x s t u hm hfit hdump hmem hindex hzero
  obtain ⟨-, hstore, -⟩ := dumpStoresRegisters x s hm
  obtain ⟨t', hdump', hframe, hbytes, -⟩ := hstore hfit
  obtain rfl : t' = t := Host.Outcome.next.inj (hdump'.symm.trans hdump)
  have hi : u.index = s.index := by rw [hindex, hframe]
  obtain ⟨-, hload, -⟩ := loadReadsRegisters x u
  obtain ⟨w, hexec, -, hregs⟩ := hload (hi ▸ hfit)
  refine ⟨w, hexec, fun r => ?_⟩
  rw [hregs, hzero, hi, State.readByte, hmem]
  split
  next hr => exact hbytes r hr
  next => rfl

end Sys2Proof.Machine
end

section
/-! The framebuffer instructions (43_display.md R200 to R205). -/

namespace Sys2Proof.Machine

/-- A sprite with no rows, or whose rows lie in memory, is drawn (R202, R204). -/
theorem exec_drw_of_fits {x y n : Nibble} {s : State} (h : n = 0 ∨ s.index.toNat + n.toNat ≤ 0x1000) :
    exec (.drw x y n) s = .next (s.show (s.drawn (s.getV x) (s.getV y) n)).advance := by
  refine congrArg Host.Outcome.next (if_pos ((inRange_iff _ _).2 ?_))
  obtain rfl | h := h
  · exact .inl rfl
  · unfold State.baseAddress; omega

/-- Drawing a sprite changes exactly the cells it covers (R202, R204). -/
theorem State.cellAt_drawn_ne_iff (s : State) (vx vy : Byte) (n : Nibble) (k : Nat) :
    cellAt (s.drawn vx vy n).fb k ≠ cellAt s.fb k ↔ s.spriteCovers vx vy n k := by
  rw [State.drawn, Canvas.cellAt_drawRows _ _ _ _ _ _ _ n.isLt.le, State.spriteCovers_iff]
  split
  next hk => simp [hk]
  next hk => simp [hk]

/-- A sprite hits exactly when it covers a set cell (R202). -/
theorem State.hit_drawn_iff (s : State) (vx vy : Byte) (n : Nibble) :
    (s.drawn vx vy n).hit = true ↔ ∃ k, s.spriteCovers vx vy n k ∧ cellAt s.fb k = true := by
  simp only [State.drawn, Canvas.hit_drawRows _ _ _ _ _ _ n.isLt.le, Bool.false_eq_true, false_or,
    State.spriteCovers_iff]

theorem flagOf_eq_one_iff (c : Bool) : flagOf c = 1 ↔ c = true := by
  cases c <;> decide

/-- VF after a draw is 1 exactly when the sprite covers a set cell (R202). -/
theorem State.flag_show_drawn_iff (s : State) (vx vy : Byte) (n : Nibble) :
    (s.show (s.drawn vx vy n)).getV 15 = 1 ↔ ∃ k, s.spriteCovers vx vy n k ∧ cellAt s.fb k = true := by
  rw [State.getV_show, if_pos rfl, collisionFlag, flagOf_eq_one_iff, State.hit_drawn_iff]

/-- Settles O33: the sprite is drawn, and each cell, VF and the other registers are read off the drawn picture. -/
theorem drawTogglesCoveredCells : Obligations.DrawTogglesCoveredCells := by
  refine fun x y n s hfit => ⟨rfl, _, exec_drw_of_fits hfit, rfl, fun k _ => ?cells, fun r hr => ?registers, ?bit, ?flag⟩
  case cells => exact s.cellAt_drawn_ne_iff _ _ n k
  case registers => rw [State.getV_advance, State.getV_show, if_neg hr]
  case bit =>
    rw [State.getV_advance, State.getV_show, if_pos rfl]
    exact flagOf_eq_zero_or_one _
  case flag => exact s.flag_show_drawn_iff _ _ n

/-- The cells a sprite covers depend on memory and `I` alone (R202). -/
theorem State.spriteCovers_congr {s u : State} (hmem : u.mem = s.mem) (hindex : u.index = s.index) (vx vy : Byte)
    (n : Nibble) (k : Nat) : u.spriteCovers vx vy n k ↔ s.spriteCovers vx vy n k := by
  rw [State.spriteCovers_iff, State.spriteCovers_iff, State.baseAddress, State.baseAddress, hmem, hindex]

/-- A sprite covers some cell exactly when it has a set bit: column `c` is bit `7 - c` (R203). -/
theorem State.exists_spriteCovers_iff (s : State) (vx vy : Byte) (n : Nibble) :
    (∃ k, s.spriteCovers vx vy n k) ↔
      ∃ r c, r < n.toNat ∧ c < 8 ∧ (s.readByte (s.index.toNat + r)).getLsbD c = true := by
  constructor
  · rintro ⟨_, r, c, hr, -, hbit, -⟩
    exact ⟨r, 7 - c, hr, by omega, hbit⟩
  · rintro ⟨r, c, hr, hc, hbit⟩
    have hcol : 7 - (7 - c) = c := by omega
    exact ⟨_, r, 7 - c, hr, by omega, by rwa [hcol], rfl⟩

/-- A cell the sprite covers is toggled, a clear one set and a set one cleared (R202, R204). -/
theorem State.cellAt_drawn_of_covers {s : State} {vx vy : Byte} {n : Nibble} {k : Nat} (hk : s.spriteCovers vx vy n k) :
    cellAt (s.drawn vx vy n).fb k = !cellAt s.fb k :=
  Bool.eq_not_of_ne ((s.cellAt_drawn_ne_iff vx vy n k).2 hk)

/-- A cell the sprite does not cover keeps its value (R204). -/
theorem State.cellAt_drawn_of_not_covers {s : State} {vx vy : Byte} {n : Nibble} {k : Nat}
    (hk : ¬ s.spriteCovers vx vy n k) : cellAt (s.drawn vx vy n).fb k = cellAt s.fb k :=
  not_ne_iff.1 (mt (s.cellAt_drawn_ne_iff vx vy n k).1 hk)

/-- The same sprite drawn again, on the picture the first draw left, gives back the picture before it (R205). -/
theorem State.fb_drawn_again {s u : State} {vx vy : Byte} {n : Nibble} (hfb : u.fb = (s.drawn vx vy n).fb)
    (hmem : u.mem = s.mem) (hindex : u.index = s.index) : (u.drawn vx vy n).fb = s.fb := by
  refine frame_ext fun k _ => ?_
  have hcovers := State.spriteCovers_congr hmem hindex vx vy n k
  by_cases hk : s.spriteCovers vx vy n k
  · rw [State.cellAt_drawn_of_covers (hcovers.2 hk), hfb, State.cellAt_drawn_of_covers hk, Bool.not_not]
  · rw [State.cellAt_drawn_of_not_covers (mt hcovers.1 hk), hfb, State.cellAt_drawn_of_not_covers hk]

/-- The second draw meets a set cell exactly where the first met a clear one (R205). -/
theorem State.flag_show_drawn_again_iff {s u : State} {vx vy : Byte} {n : Nibble} (hfb : u.fb = (s.drawn vx vy n).fb)
    (hmem : u.mem = s.mem) (hindex : u.index = s.index) :
    (u.show (u.drawn vx vy n)).getV 15 = 1 ↔ ∃ k, s.spriteCovers vx vy n k ∧ cellAt s.fb k = false := by
  simp only [State.flag_show_drawn_iff, State.spriteCovers_congr hmem hindex]
  refine exists_congr fun k => and_congr_right fun hk => ?_
  rw [hfb, State.cellAt_drawn_of_covers hk, Bool.not_eq_true']

/-- Settles O35: both draws toggle the same cells; on a clear framebuffer every covered cell is clear. -/
theorem drawTwiceRestoresFramebuffer : Obligations.DrawTwiceRestoresFramebuffer := by
  intro x y n s t u w hfit hfirst hfb hmem hindex hvx hvy hsecond
  obtain rfl := Host.Outcome.next.inj ((exec_drw_of_fits hfit).symm.trans hfirst)
  obtain rfl := Host.Outcome.next.inj ((exec_drw_of_fits (hindex ▸ hfit)).symm.trans hsecond)
  rw [hvx, hvy, State.getV_advance, State.getV_advance]
  have hmet := State.flag_show_drawn_again_iff hfb hmem hindex
  refine ⟨State.fb_drawn_again hfb hmem hindex, hmet, s.flag_show_drawn_iff _ _ n, fun hclear => ?onClear⟩
  rw [← s.exists_spriteCovers_iff (s.getV x) (s.getV y) n]
  simpa only [hclear, and_true] using hmet

/-- Settles O32: the cleared framebuffer is zero, bit by bit. -/
theorem clearZeroesFramebuffer : Obligations.ClearZeroesFramebuffer :=
  fun _ => ⟨rfl, _, rfl, rfl, fun _ => BitVec.getLsbD_zero⟩

/-- Settles O34: the bounds check of the sprite's rows fails, and the error changes `RUN` alone. -/
theorem drawOutsideMemoryHalts : Obligations.DrawOutsideMemoryHalts :=
  fun _ _ _ _ hrows hout =>
    congrArg Host.Outcome.next (State.ifInRange_of_gt hrows (by unfold State.baseAddress; omega))

end Sys2Proof.Machine
end

section
/-! The key and timer instructions (44_keys_timers.md R220 to R226). -/

namespace Sys2Proof.Machine

/-- The environment's answer is whether it holds the whole 8-bit code (R221, R257). -/
theorem State.isKeyPressed_eq_decide (s : State) (k : Byte) : s.isKeyPressed k = decide (k ∈ s.env.held) :=
  List.contains_eq_mem k s.env.held

/-- With a key observed the wait ends with its code as the result (R223). -/
theorem exec_ldVxK_of_press {x k : Nibble} {s : State} (hk : s.env.keyPress = some k) :
    exec (.ldVxK x) s = .next { s.finish x (k.setWidth 8) with awaitingKey := false } := by
  simp only [exec, execLdVxK, hk]
  rfl

/-- Without a key observed the instruction only marks the wait (R223, D30). -/
theorem exec_ldVxK_of_no_press {x : Nibble} {s : State} (hk : s.env.keyPress = none) :
    exec (.ldVxK x) s = .next { s with awaitingKey := true } := by
  simp only [exec, execLdVxK, hk]

/-- A reading that is not before the clock is taken as it is (R260). -/
theorem laterOf_of_le {a b : Instant} (h : a ≤ b) : laterOf a b = b := if_pos h

/-- Settles O36: both skips test the same answer, the second its negation. -/
theorem keySkipsFollowAnswer : Obligations.KeySkipsFollowAnswer := by
  intro x s
  refine ⟨rfl, rfl, ?skp, ?sknp⟩
  case skp => rw [← State.skipIf_decide, ← State.isKeyPressed_eq_decide]; rfl
  case sknp => rw [← ite_not, ← State.skipIf_decide, decide_not, ← State.isKeyPressed_eq_decide]; rfl

/-- Settles O37: the two answers of the environment are the two clauses; the key's code is the result in `V[x]`. -/
theorem keyWaitCompletesOnPress : Obligations.KeyWaitCompletesOnPress := by
  intro x s
  refine ⟨rfl, fun k hk => ⟨_, exec_ldVxK_of_press hk, rfl, fun r => ?register⟩, exec_ldVxK_of_no_press⟩
  have hcode : (k.setWidth 8).toNat = k.toNat := BitVec.toNat_setWidth_of_le (by decide)
  calc ((s.finish x (k.setWidth 8)).getV r).toNat
      = (if r = x then k.setWidth 8 else s.getV r).toNat := by rw [State.getV_finish]
    _ = if r = x then k.toNat else (s.getV r).toNat := by rw [apply_ite BitVec.toNat, hcode]

/-- Settles O38: the delay count is a result; both starts take the later of the clock and the environment's reading. -/
theorem timerReadAndStart : Obligations.TimerReadAndStart := fun _ s =>
  ⟨rfl, rfl, rfl, writesResult_of_exec rfl, laterOf s.now s.env.execTime, le_laterOf_left _ _, laterOf_of_le, rfl, rfl⟩

end Sys2Proof.Machine
end

section
/-! The fatal errors of instructions, and the run states a step leads to (60_exceptions.md R243 to R251, R263). -/

namespace Sys2Proof.Machine

/-- `RaisesFatal s i g`: the condition under which `i`, executed on `s`, raises `Fatal(g)`, one constructor per
instruction that can (R243, R245). -/
inductive RaisesFatal (s : State) : Instr → FatalTag → Prop where
  /-- A call with 16 return addresses held (R122, R243). -/
  | call {nnn : Addr} (hs : s.sp.val = 16) : RaisesFatal s (.call nnn) .stackOverflow
  /-- A return with none held (R121, R243). -/
  | ret (hs : s.sp.val = 0) : RaisesFatal s .ret .stackUnderflow
  /-- Three digits that do not all fit in memory (R184, R245). -/
  | ldB {x : Nibble} (hout : s.index.toNat + 2 > 0xFFF) : RaisesFatal s (.ldB x) .memoryOutOfBounds
  /-- A register dump beyond memory (R185, R245). -/
  | ldMemVx {x : Nibble} (hout : s.index.toNat + x.toNat > 0xFFF) : RaisesFatal s (.ldMemVx x) .memoryOutOfBounds
  /-- A register load from beyond memory (R186, R245). -/
  | ldVxMem {x : Nibble} (hout : s.index.toNat + x.toNat > 0xFFF) : RaisesFatal s (.ldVxMem x) .memoryOutOfBounds
  /-- A sprite with rows beyond memory (R202, R204, R245). -/
  | drw {x y n : Nibble} (hout : n.toNat > 0 ∧ s.index.toNat + n.toNat - 1 > 0xFFF) :
      RaisesFatal s (.drw x y n) .memoryOutOfBounds

/-- Under its condition an instruction raises the error and has no other effect (R247). -/
theorem exec_of_raisesFatal {s : State} {i : Instr} {g : FatalTag} (h : RaisesFatal s i g) :
    exec i s = .next (s.raiseFatal g) := by
  cases h with
  | call hs => exact exec_call_of_full _ s (Fin.ext hs)
  | ret hs => exact exec_ret_of_empty s (Fin.ext hs)
  | ldB hout => exact exec_ldB_of_gt _ (by omega)
  | ldMemVx hout => exact exec_ldMemVx_of_gt hout
  | ldVxMem hout => exact exec_ldVxMem_of_gt hout
  | drw hout => exact drawOutsideMemoryHalts _ _ _ s hout.1 hout.2

/-- An instruction leaves `RUN` as it is, or raises a fatal error under its condition. -/
theorem exec_run_cases {i : Instr} {s t : State} (h : exec i s = .next t) :
    t.run = s.run ∨ ∃ g, RaisesFatal s i g ∧ t = s.raiseFatal g := by
  cases i with
  | call =>
    obtain ⟨_, rfl⟩ | ⟨hs, rfl⟩ := exec_call_cases h
    · exact .inl rfl
    · exact .inr ⟨_, .call (congrArg Fin.val hs), rfl⟩
  | ret =>
    obtain ⟨_, rfl⟩ | ⟨hs, rfl⟩ := exec_ret_cases h
    · exact .inl rfl
    · exact .inr ⟨_, .ret (congrArg Fin.val hs), rfl⟩
  | ldB =>
    obtain ⟨-, rfl⟩ | ⟨hout, rfl⟩ := exec_ldB_cases h
    · exact .inl rfl
    · exact .inr ⟨_, .ldB hout, rfl⟩
  | ldMemVx =>
    obtain ⟨-, rfl⟩ | ⟨hout, rfl⟩ := exec_ldMemVx_cases h
    · exact .inl rfl
    · exact .inr ⟨_, .ldMemVx hout, rfl⟩
  | ldVxMem =>
    obtain ⟨-, rfl⟩ | ⟨hout, rfl⟩ := exec_ldVxMem_cases h
    · exact .inl rfl
    · exact .inr ⟨_, .ldVxMem hout, rfl⟩
  | drw =>
    obtain ⟨-, rfl⟩ | ⟨hout, rfl⟩ := exec_drw_cases h
    · exact .inl rfl
    · exact .inr ⟨_, .drw hout, rfl⟩
  | ldVxK => obtain ⟨_, -, rfl⟩ | ⟨-, rfl⟩ := exec_ldVxK_cases h <;> exact .inl rfl
  | _ => cases h; exact .inl rfl

/-- From `Running`, an instruction halts with a tag exactly under the tag's condition. -/
theorem exec_run_eq_halted_iff {i : Instr} {s t : State} {g : FatalTag} (hrun : s.run = .running)
    (h : exec i s = .next t) : t.run = .halted g ↔ RaisesFatal s i g := by
  constructor
  · intro hhalt
    obtain hkept | ⟨g', hfatal, rfl⟩ := exec_run_cases h
    · rw [hkept, hrun] at hhalt; cases hhalt
    · cases hhalt; exact hfatal
  · intro hfatal
    obtain rfl := Host.Outcome.next.inj (h.symm.trans (exec_of_raisesFatal hfatal))
    rfl

theorem raisesFatal_stackOverflow_iff {s : State} {i : Instr} :
    RaisesFatal s i .stackOverflow ↔ (∃ nnn, i = .call nnn) ∧ s.sp.val = 16 := by
  constructor
  · intro h
    cases h with
    | call hs => exact ⟨⟨_, rfl⟩, hs⟩
  · rintro ⟨⟨_, rfl⟩, hs⟩; exact .call hs

theorem raisesFatal_stackUnderflow_iff {s : State} {i : Instr} :
    RaisesFatal s i .stackUnderflow ↔ i = .ret ∧ s.sp.val = 0 := by
  constructor
  · intro h
    cases h with
    | ret hs => exact ⟨rfl, hs⟩
  · rintro ⟨rfl, hs⟩; exact .ret hs

theorem raisesFatal_memoryOutOfBounds_iff {s : State} {i : Instr} :
    RaisesFatal s i .memoryOutOfBounds ↔
      ((∃ x, i = .ldB x) ∧ s.index.toNat + 2 > 0xFFF) ∨
      (∃ x, (i = .ldMemVx x ∨ i = .ldVxMem x) ∧ s.index.toNat + x.toNat > 0xFFF) ∨
      (∃ x y n, i = .drw x y n ∧ n.toNat > 0 ∧ s.index.toNat + n.toNat - 1 > 0xFFF) := by
  constructor
  · intro h
    cases h with
    | ldB hout => exact .inl ⟨⟨_, rfl⟩, hout⟩
    | ldMemVx hout => exact .inr (.inl ⟨_, .inl rfl, hout⟩)
    | ldVxMem hout => exact .inr (.inl ⟨_, .inr rfl, hout⟩)
    | drw hout => exact .inr (.inr ⟨_, _, _, rfl, hout⟩)
  · rintro (⟨⟨_, rfl⟩, hout⟩ | ⟨_, rfl | rfl, hout⟩ | ⟨_, _, _, rfl, hout⟩)
    · exact .ldB hout
    · exact .ldMemVx hout
    · exact .ldVxMem hout
    · exact .drw hout

/-- The three tags an instruction can raise (R243, R245). -/
theorem RaisesFatal.tag_cases {s : State} {i : Instr} {g : FatalTag} (h : RaisesFatal s i g) :
    g = .stackOverflow ∨ g = .stackUnderflow ∨ g = .memoryOutOfBounds := by
  cases h with
  | call => exact .inl rfl
  | ret => exact .inr (.inl rfl)
  | ldB | ldMemVx | ldVxMem | drw => exact .inr (.inr rfl)

/-- Settles O43: each tag's condition, and `RUN` kept when no condition is met. -/
theorem fatalErrorsOfInstructions : Obligations.FatalErrorsOfInstructions := by
  intro i s t hrun h
  refine ⟨?overflow, ?underflow, ?outOfBounds, ?noOther⟩
  case overflow => rw [exec_run_eq_halted_iff hrun h, raisesFatal_stackOverflow_iff]
  case underflow => rw [exec_run_eq_halted_iff hrun h, raisesFatal_stackUnderflow_iff]
  case outOfBounds => rw [exec_run_eq_halted_iff hrun h, raisesFatal_memoryOutOfBounds_iff]
  case noOther =>
    obtain hkept | ⟨g, hfatal, rfl⟩ := exec_run_cases h
    · exact .inl (hkept.trans hrun)
    · obtain rfl | rfl | rfl := hfatal.tag_cases
      · exact .inr (.inl rfl)
      · exact .inr (.inr (.inl rfl))
      · exact .inr (.inr (.inr rfl))

/-- Settles O44: an instruction that halts has met its condition, and then answers the old state with the tag raised. -/
theorem fatalErrorChangesOnlyRun : Obligations.FatalErrorChangesOnlyRun := by
  intro i s t g hrun h hhalt
  have hfatal := (exec_run_eq_halted_iff hrun h).1 hhalt
  exact Host.Outcome.next.inj (h.symm.trans (exec_of_raisesFatal hfatal))

/-- No instruction raises `MissingRom`, which is raised before a load only (R246). -/
theorem RaisesFatal.tag_ne_missingRom {s : State} {i : Instr} {g : FatalTag} (h : RaisesFatal s i g) :
    g ≠ .missingRom := by
  obtain rfl | rfl | rfl := h.tag_cases <;> decide

/-- A fetch fails with one tag alone (R244). -/
theorem State.fetch_eq_error {s : State} {g : FatalTag} (h : s.fetch = .error g) : g = .fetchOutOfBounds := by
  unfold State.fetch at h
  split at h
  · cases h
  · cases h; rfl

/-- The end of a cycle leaves `RUN` as it is (R262). -/
theorem State.endCycle_run (s : State) : s.endCycle.run = s.run := by rw [s.endCycle_frame]

theorem step_of_uninitialized {s : State} (h : s.run = .uninitialized) : step s = .next (s.raiseFatal .missingRom) := by
  rw [step, h]

theorem step_of_halted {s : State} {g : FatalTag} (h : s.run = .halted g) : step s = .next s := by
  rw [step, h]

/-- Where a cycle of a loaded core that has not halted leads (R263). -/
theorem step_run_of_loaded {s t : State} (hrun : s.run = .ready ∨ s.run = .running) (h : step s = .next t) :
    t.run = .running ∨ ∃ g, g ≠ .missingRom ∧ t.run = .halted g := by
  obtain ⟨hr, -⟩ | ⟨⟨g, hr⟩, -⟩ | ⟨-, hcycle⟩ := step_cases h
  · rw [hr] at hrun; simp at hrun
  · rw [hr] at hrun; simp at hrun
  · obtain ⟨g, hfetch, rfl⟩ | ⟨w, -, -, rfl⟩ | ⟨w, i, u, -, -, hexec, rfl⟩ := hcycle
    · exact .inr ⟨g, by rw [State.fetch_eq_error hfetch]; decide, rfl⟩
    · exact .inr ⟨_, by decide, rfl⟩
    · rw [State.endCycle_run]
      obtain hkept | ⟨g, hfatal, rfl⟩ := exec_run_cases hexec
      · exact .inl hkept
      · exact .inr ⟨g, hfatal.tag_ne_missingRom, rfl⟩

/-- Settles O13: the three starting points of a step. -/
theorem runStateTransitions : Obligations.RunStateTransitions := by
  refine fun s t h => ⟨fun hun => ?fromUninitialized, fun g hg => ?fromHalted, fun hrun => step_run_of_loaded hrun h⟩
  case fromUninitialized =>
    obtain rfl := Host.Outcome.next.inj ((step_of_uninitialized hun).symm.trans h)
    rfl
  case fromHalted =>
    obtain rfl := Host.Outcome.next.inj ((step_of_halted hg).symm.trans h)
    exact hg

/-- Settles O10: a step while `Uninitialized` raises `MissingRom` and nothing else happens. -/
theorem stepBeforeLoadHalts : Obligations.StepBeforeLoadHalts := fun _ => step_of_uninitialized

/-- A state that a step answers again is where any number of steps leads. -/
theorem core_run_of_step_eq_self {M : Host.Core} {s : M.State} (h : M.step s = .next s) (k : Nat) :
    M.run k s = .next s := by
  induction k with
  | zero => rfl
  | succ k ih => rw [Host.Core.run, h]; exact ih

/-- Settles O11: a step of a halted state answers that state. -/
theorem haltedIsTerminal : Obligations.HaltedIsTerminal := fun _ _ k hg =>
  core_run_of_step_eq_self (M := Sys2Proof.core) (step_of_halted hg) k

/-- Every instruction answers a next state: none faults and none is refused. -/
theorem exists_exec_eq_next (i : Instr) (s : State) : ∃ t, exec i s = .next t := by
  cases i <;> exact ⟨_, rfl⟩

/-- A cycle answers a next state, whatever its fetch and decoding give (R262). -/
theorem exists_runCycle_eq_next (s : State) : ∃ t, runCycle s = .next t := by
  cases hfetch : s.fetch with
  | error g => exact ⟨_, runCycle_of_fetch_error hfetch⟩
  | ok w =>
    cases hw : decodeWord w with
    | none => exact ⟨_, runCycle_of_decodeWord_eq_none hfetch hw⟩
    | some i =>
      obtain ⟨t, hexec⟩ := exists_exec_eq_next i s.beginCycle
      exact ⟨t.endCycle, by simp only [runCycle, State.fetch_beginCycle, hfetch, hw, hexec]⟩

/-- Settles O12: by the run state; a cycle answers a next state because every instruction does. -/
theorem stepAlwaysAnswersNext : Obligations.StepAlwaysAnswersNext := by
  intro s
  cases hrun : s.run with
  | uninitialized => exact ⟨_, step_of_uninitialized hrun⟩
  | halted g => exact ⟨s, step_of_halted hrun⟩
  | ready => rw [step_eq_runCycle (.inl hrun)]; exact exists_runCycle_eq_next s
  | running => rw [step_eq_runCycle (.inr hrun)]; exact exists_runCycle_eq_next s

end Sys2Proof.Machine
end

section
/-! The clock speed, the two ends of a cycle, and the timers (60_exceptions.md R252 to R254, R260 to R262). -/

namespace Sys2Proof.Machine

/-- The rate a setting stores, in numbers (R261, R295). -/
theorem clockSetting_eq (hz : Nat) : clockSetting hz = if hz = 0 then 500 else hz := rfl

theorem State.setClockSpeed_of_between {s : State} (hz : Nat) (h : s.awaitingKey = false) :
    s.setClockSpeed hz = some { s with clockSpeed := clockSetting hz } := by
  rw [State.setClockSpeed, h]; rfl

theorem State.setClockSpeed_of_awaiting {s : State} (hz : Nat) (h : s.awaitingKey = true) :
    s.setClockSpeed hz = none := by
  rw [State.setClockSpeed, h]; rfl

/-- Settles O57: the port takes a setting between cycles only. -/
theorem clockSettingNormalizesZero : Obligations.ClockSettingNormalizesZero := fun s hz =>
  ⟨fun h => by rw [← clockSetting_eq]; exact State.setClockSpeed_of_between hz h, State.setClockSpeed_of_awaiting hz⟩

/-- The clock speed a cycle begins with: inside a suspended cycle the old one, else the rate the host asked for, if any
(R261, R289). -/
theorem State.beginCycle_clockSpeed_eq (s : State) :
    s.beginCycle.clockSpeed =
      if s.awaitingKey then s.clockSpeed else (Config.environment s.cycle).setClock.elim s.clockSpeed clockSetting := by
  rw [State.beginCycle_clockSpeed]
  cases (Config.environment s.cycle).setClock with
  | none => exact (ite_self _).symm
  | some hz =>
    cases h : s.awaitingKey with
    | false => rw [Option.bind_some, State.setClockSpeed_of_between hz h]; rfl
    | true => rw [Option.bind_some, State.setClockSpeed_of_awaiting hz h]; rfl

/-- The beginning of a cycle writes `RUN`, the clock speed and the model's own three fields (R262). -/
theorem State.beginCycle_frame (s : State) :
    s.beginCycle = { s with run := .running, awaitingKey := false, env := Config.environment s.cycle,
                            cycle := s.cycle + 1, clockSpeed := s.beginCycle.clockSpeed } := rfl

/-- Settles O7: the fields written, the clock speed being the old one or the rate the host asked for. -/
theorem cycleBeginsRunning : Obligations.CycleBeginsRunning := by
  intro s
  rw [s.beginCycle_frame, s.beginCycle_clockSpeed_eq]
  cases (Config.environment s.cycle).setClock with
  | none => rfl
  | some hz => rfl

theorem State.endCycle_of_completed {s : State} (hrun : s.run = .running) (hkey : s.awaitingKey = false) :
    s.endCycle = s.pace.tickTimers :=
  if_pos ⟨hrun, hkey⟩

theorem State.endCycle_of_not_completed {s : State} (h : ¬(s.run = .running ∧ s.awaitingKey = false)) :
    s.endCycle = s :=
  if_neg h

/-- Settles O8: the end of a cycle asks whether the instruction completed. -/
theorem cycleEndsWithPaceAndTick : Obligations.CycleEndsWithPaceAndTick := by
  refine fun s => ⟨State.endCycle_of_completed, fun g hg => ?halted, fun hkey => ?awaiting⟩
  case halted => exact State.endCycle_of_not_completed fun ⟨hrun, _⟩ => by rw [hg] at hrun; cases hrun
  case awaiting => exact State.endCycle_of_not_completed fun ⟨_, hbetween⟩ => by rw [hkey] at hbetween; cases hbetween

/-- A nonzero count less one, as a number. -/
theorem byte_sub_one_toNat {b : Byte} (h : b ≠ 0) : (b - 1).toNat = b.toNat - 1 := by
  bv_omega

/-- A tick takes at most 1 from the count, and only from a nonzero one (R252, R254). -/
theorem Timer.tick_count_cases (T : Timer) (period : ℚ) (t : Instant) :
    (T.tick period t).count = T.count ∨ T.count ≠ 0 ∧ (T.tick period t).count.toNat = T.count.toNat - 1 := by
  obtain ⟨hne, -, htick⟩ | ⟨-, htick⟩ := T.tick_cases period t
  · exact .inr ⟨hne, by rw [htick, byte_sub_one_toNat hne]⟩
  · exact .inl (by rw [htick])

/-- Settles O41: the end of a cycle ticks each timer once, the pace phase leaving both as they are, or does nothing. -/
theorem cycleTakesAtMostOneTick : Obligations.CycleTakesAtMostOneTick := by
  intro s
  by_cases hdone : s.run = .running ∧ s.awaitingKey = false
  · rw [State.endCycle_of_completed hdone.1 hdone.2, State.tickTimers_dt, State.tickTimers_st]
    exact ⟨Timer.tick_count_cases s.dt _ _, Timer.tick_count_cases s.st _ _⟩
  · rw [State.endCycle_of_not_completed hdone]
    exact ⟨.inl rfl, .inl rfl⟩

/-- A tick that is due takes 1 from the count and records the instant (R252). -/
theorem Timer.tick_of_due {T : Timer} {period : ℚ} {t : Instant} (h : T.count ≠ 0 ∧ period ≤ t - T.last) :
    T.tick period t = { count := T.count - 1, last := t } :=
  if_pos h

theorem Timer.tick_of_not_due {T : Timer} {period : ℚ} {t : Instant}
    (h : ¬(T.count ≠ 0 ∧ period ≤ t - T.last)) : T.tick period t = T :=
  if_neg h

/-- Settles O39: the timer's operations by their definitions, and the tick phase at the later of the clock and the
environment's reading. -/
theorem timerOperations : Obligations.TimerOperations := by
  refine ⟨fun _ _ => ⟨rfl, rfl⟩, fun _ => rfl, fun T period t => ⟨fun hdue => ?due, Timer.tick_of_not_due⟩,
    fun s => ⟨laterOf s.now s.env.tickTime, le_laterOf_left _ _, laterOf_of_le, rfl⟩⟩
  case due =>
    rw [Timer.tick_of_due hdue]
    exact ⟨byte_sub_one_toNat hdue.1, rfl⟩

/-- The timer holds `n`, and unless that is 0 its last decrement or start was at `t`. -/
structure Timer.Holds (T : Timer) (n : Nat) (t : Instant) : Prop where
  count_eq : T.count.toNat = n
  last_eq : T.count ≠ 0 → T.last = t

theorem Timer.holds_start (v : Byte) (t : Instant) : (Timer.start v t).Holds v.toNat t := ⟨rfl, fun _ => rfl⟩

/-- A tick at least a period later takes 1, down to 0 (R252, R254). -/
theorem Timer.Holds.tick {T : Timer} {n : Nat} {t t' : Instant} {period : ℚ} (h : T.Holds n t)
    (hperiod : period ≤ t' - t) : (T.tick period t').Holds (n - 1) t' := by
  obtain ⟨hcount, hlast⟩ := h
  by_cases hzero : T.count = 0
  · rw [Timer.tick_of_not_due fun hdue => hdue.1 hzero]
    exact ⟨by rw [← hcount, hzero]; rfl, fun hne => absurd hzero hne⟩
  · have hdue : T.count ≠ 0 ∧ period ≤ t' - T.last := ⟨hzero, by rw [hlast hzero]; exact hperiod⟩
    rw [Timer.tick_of_due hdue]
    exact ⟨by rw [← hcount, byte_sub_one_toNat hzero], fun _ => rfl⟩

/-- Ticks at instants a period apart take 1 each, down to 0 (R254). -/
theorem Timer.holds_foldl_tick {period : ℚ} {t : Nat → Instant} (hperiod : ∀ k, period ≤ t (k + 1) - t k) (v : Byte)
    (n : Nat) :
    ((List.range n).foldl (fun T k => Timer.tick T period (t (k + 1))) (Timer.start v (t 0))).Holds
      (v.toNat - n) (t n) := by
  induction n with
  | zero => exact Timer.holds_start v (t 0)
  | succ n ih =>
    rw [List.range_succ, List.foldl_append]
    exact ih.tick (hperiod n)

/-- Settles O40: the count after `n` ticks. -/
theorem timerCountsDownToZero : Obligations.TimerCountsDownToZero := fun v _ _ hperiod n =>
  (Timer.holds_foldl_tick hperiod v n).count_eq

end Sys2Proof.Machine
end

section
/-! The pace phase (70_reset_and_hazards.md R293, R294). -/

namespace Sys2Proof.Machine

/-- A reading that is not after the clock leaves it where it was (R260). -/
theorem laterOf_of_ge {a b : Instant} (h : b ≤ a) : laterOf a b = a := by
  rcases h.eq_or_lt with rfl | hlt
  · exact laterOf_of_le (le_refl b)
  · exact if_neg (not_le.2 hlt)

/-- The pacer's interval with the exact quotient in milliseconds (R293, D25). -/
theorem paceInterval_eq (truncated : Bool) (clockSpeed : Nat) :
    paceInterval truncated clockSpeed =
      if truncated then ((1000000 / clockSpeed : Nat) : ℚ) / 1000 else 1000 / (clockSpeed : ℚ) := by
  unfold paceInterval
  split
  · rfl
  · rw [div_right_comm]; norm_num

/-- A pacer that finds the interval passed does not wait (R293). -/
theorem paceRelease_of_le {last interval begun : ℚ} (h : interval ≤ begun - last) :
    paceRelease last interval begun = begun :=
  if_neg (not_lt.2 h)

/-- The pace phase records an instant at least an interval after the last one (R293). -/
theorem State.paceLast_add_interval_le (s : State) :
    s.paceLast + paceInterval s.params.paceTruncated s.clockSpeed ≤ s.pace.paceLast :=
  (le_paceRelease _ _ _).2.trans (le_laterOf_left _ _)

/-- A cycle that ran long is not delayed: the instant recorded is the one at which the phase began (R293, D25). -/
theorem State.pace_paceLast_of_long {s : State} (hnow : s.now ≤ s.env.paceTime)
    (hlong : paceInterval s.params.paceTruncated s.clockSpeed ≤ s.env.paceTime - s.paceLast)
    (hrecord : s.env.recordTime ≤ s.env.paceTime) : s.pace.paceLast = s.env.paceTime := by
  rw [State.pace, laterOf_of_le hnow, paceRelease_of_le hlong, laterOf_of_ge hrecord]

/-- Settles O42: the pacer releases no earlier than an interval after `PACE_last`, and at once when that has passed. -/
theorem pacerKeepsInterval : Obligations.PacerKeepsInterval := by
  intro s
  rw [← paceInterval_eq]
  exact ⟨s.paceLast_add_interval_le, s.le_pace_now, rfl, State.pace_paceLast_of_long⟩

end Sys2Proof.Machine
end

section
/-! The load port (70_reset_and_hazards.md R283, R284). -/

namespace Sys2Proof.Machine

/-- Settles O56: the three checks of a load decide whether it succeeds; its writes are those of `State.load_eq_ok`. -/
theorem loadAcceptsImagesThatFit : Obligations.LoadAcceptsImagesThatFit := by
  refine fun s rom reading => ⟨romMax_bounds s.params, ⟨?fits, ?succeeds⟩, ?effect⟩
  case fits =>
    rintro ⟨t, h⟩
    obtain ⟨hrun, hne, hlen, -⟩ := State.load_eq_ok h
    exact ⟨hrun, List.length_pos_iff.2 hne, hlen⟩
  case succeeds =>
    rintro ⟨hrun, hpos, hlen⟩
    exact ⟨_, State.load_eq_ok_of_fits reading hrun (List.length_pos_iff.1 hpos) hlen⟩
  case effect =>
    intro t h
    obtain ⟨-, -, hlen, rfl⟩ := State.load_eq_ok h
    exact ⟨rfl, le_laterOf_left _ _, laterOf_of_le,
      fun hwf k hk => Memory.read_writeBytes rom s.mem programBase k hwf (program_end_le hlen) hk,
      fun a ha => Memory.read_writeBytes_other rom s.mem programBase a ha⟩

end Sys2Proof.Machine
end

section
/-! The state at reset (70_reset_and_hazards.md R280, R281; 10_state.md R41 to R43). -/

namespace Sys2Proof.Machine

/-- Bytes that an empty memory already reads leave it empty. -/
theorem Memory.writeBytes_nil_of_unlisted (bytes : List Byte) : ∀ a : Nat,
    (∀ k (h : k < bytes.length), bytes[k] = Memory.unlisted (a + k)) → Memory.writeBytes [] a bytes = [] := by
  induction bytes with
  | nil => intros; rfl
  | cons v bytes ih =>
    intro a h
    have hv : v = Memory.unlisted a := h 0 (Nat.zero_lt_succ _)
    rw [Memory.writeBytes, Memory.write, Memory.put, if_pos hv]
    refine ih (a + 1) fun k hk => ?_
    rw [Nat.add_right_comm]
    exact h (k + 1) (Nat.succ_lt_succ hk)

/-- In the font's place an unlisted address reads the default font (R41, R61). -/
theorem Memory.unlisted_font {k : Nat} (h : k < defaultFont.length) : Memory.unlisted (fontBase + k) = defaultFont[k] := by
  rw [Memory.unlisted, if_neg (Nat.not_lt.2 (Nat.le_add_right _ _)), Nat.add_sub_cancel_left, List.getD_eq_getElem _ _ h]

/-- Creation with the defaults is the state at reset, whose unlisted memory already reads the default font (R281). -/
theorem State.initial_default : State.initial defaultFont Config.params 0 = State.reset := by
  have hmem : Memory.writeBytes [] fontBase defaultFont = [] :=
    Memory.writeBytes_nil_of_unlisted _ _ fun _ hk => (Memory.unlisted_font hk).symm
  rw [State.initial, List.take_of_length_le (by decide), hmem]
  rfl

/-- Settles O54: the fields as `State.reset` gives them, the font's two glyphs by evaluation. -/
theorem resetState : Obligations.ResetState := by
  refine ⟨State.initial_default ▸ State.getV_initial defaultFont Config.params 0, rfl, rfl, rfl,
    fun k => Vector.getElem_replicate k.isLt, fun _ => BitVec.getLsbD_zero, rfl, rfl, rfl, rfl, rfl, rfl,
    fun _ => Memory.unlisted_outside_font, ?firstGlyph, ?lastGlyph, State.initial_default⟩
  case firstGlyph => decide
  case lastGlyph => decide

end Sys2Proof.Machine
end
